-- ==== Sys2Proof/Word.lean ====
section
/-! DEFINITION. The word types of the 28c-prog EEPROM controller (spec rules R8, R14).
Every quantity of the block is unsigned; there is no signed value and no width but these. -/

namespace Sys2Proof

/-- A byte of the 8-bit data bus and of a request packet (R8). -/
abbrev Byte := BitVec 8

/-- A 16-bit value: an address frame, a length, a cursor, the shift register (R8). -/
abbrev Word := BitVec 16

/-- The value of the chip's fifteen address lines `A14..A0` (R5, R27). -/
abbrev Addr := BitVec 15

end Sys2Proof
end

