-- ==== Sys2Proof/Config.lean ====
section
/-! DEFINITION. The constants the spec fixes (R5, R6, R7), the parameters it leaves open (R9) as plain data
that State carries and no step changes, and the one free-value constant of the model (`any(n)`, R11). -/

namespace Sys2Proof

/-- The readings of the pacing predicate (R177, D14). `nextAddress` is the default the spec adopts. -/
inductive PaceRule where
  | nextAddress
  | byteCount
  | writtenAddress
  deriving DecidableEq, Repr

/-- The open parameters of R9 that bear on the block, each a named argument of the model:
`F_CLK` in Hz (D2), `PACE_RULE` (D14), `SDP_SEQ_STORES` (D24). -/
structure Config where
  fClk : Nat
  paceRule : PaceRule
  sdpSeqStores : Bool
  deriving DecidableEq, Repr

namespace Config

/-- The defaults of R9. `F_CLK` has none in the spec and no rule reads it: DESIGN CHOICE (log 5). -/
def default : Config :=
  { fClk := 1000000, paceRule := .nextAddress, sdpSeqStores := false }

/-- `MAX_ROM_SIZE` (R5). -/
def maxRomSize : Nat := 0x8000

/-- `PAGE_SIZE` (R6). -/
def pageSize : Nat := 64

/-- Ticks of a wait of at least `us` microseconds, rounded up (R36, R272). -/
def ticks (c : Config) (us : Nat) : Nat := (us * c.fClk + 999999) / 1000000

/-- `T_WE_LOW` in microseconds (R7). -/
def tWeLowUs : Nat := 1

/-- `T_WE_HIGH` in microseconds (R7). -/
def tWeHighUs : Nat := 1

/-- `T_PAGE` in microseconds: 10 ms nominal (R7, D17). -/
def tPageUs : Nat := 10000

/-- The `w`-bit unconstrained value `any(w)` of R11, one for each value of the draw counter in State.
It has no body, so nothing can be proved of its value (log 3). -/
opaque freeBits : (w : Nat) → Nat → BitVec w

end Config

end Sys2Proof
end

