-- ==== Sys2Proof/Syntax.lean ====
section
/-! DEFINITION. The eleven operations of `28CP-OPS`, one constructor per row of the operation map (R104). -/

namespace Sys2Proof

/-- A request with its operands (R104, R107 to R110). `bulkwr` carries its payload; its `LEN` operand is the
count of payload bytes (R124). All 16 bits of an address are operands: values above `0x7FFF` are requests
that the controller refuses (R107). -/
inductive Instr where
  | setaddr (addr : Word)
  | rdbyte (addr : Word)
  | wrbyte (addr : Word) (wdata : Byte)
  | beginrd
  | endrd
  | beginwr
  | endwr
  | bulkwr (addr : Word) (payload : List Byte)
  | erase (len : Word)
  | sdpen
  | sdpdis
  deriving DecidableEq, Repr

end Sys2Proof
end

