-- ==== Sys2Proof/WellFormed.lean ====
section
/-! DEFINITION. Which terms of `Instr` are requests a packet can carry. -/

namespace Sys2Proof

/-- The only operand whose Lean type is wider than its packet field is the payload: its length is the 16-bit
field `LEN` (R108, R110). -/
def Instr.wellFormed : Instr → Bool
  | .setaddr _ => true
  | .rdbyte _ => true
  | .wrbyte _ _ => true
  | .beginrd => true
  | .endrd => true
  | .beginwr => true
  | .endwr => true
  | .bulkwr _ payload => payload.length < 0x10000
  | .erase _ => true
  | .sdpen => true
  | .sdpdis => true

/-- A request a packet can carry. -/
abbrev WellFormed (i : Instr) : Prop := i.wellFormed = true

end Sys2Proof
end

