-- ==== Sys2Proof/Decode.lean ====
section
/-! DEFINITION. The request packet: operation map, formats, decoder, encoder (R100 to R111, R120), and the
table-word interface the host asks for. The decoder is total on any bytes and rejects by name. -/

namespace Sys2Proof

/-- The rows of the operation map R104. -/
inductive Op where
  | setaddr | rdbyte | wrbyte | beginrd | endrd | beginwr | endwr | bulkwr | erase | sdpen | sdpdis
  deriving DecidableEq, Repr

/-- The packet formats of R105. -/
inductive Format where
  | f0 | fa | fad | fl | fal
  deriving DecidableEq, Repr

/-- Why bytes are not a request: no byte is there, the packet is not complete, or its `CMD` is reserved (R120). -/
inductive DecodeError where
  | noRequest
  | truncatedPacket
  | reservedCmd (cmd : Byte)
  deriving DecidableEq, Repr

/-- The `CMD` byte of an operation (R104). -/
def Op.cmd : Op → Byte
  | .setaddr => 0x01
  | .rdbyte => 0x02
  | .wrbyte => 0x03
  | .beginrd => 0x04
  | .endrd => 0x05
  | .beginwr => 0x06
  | .endwr => 0x07
  | .bulkwr => 0x08
  | .erase => 0x09
  | .sdpen => 0x0A
  | .sdpdis => 0x0B

/-- `OP = CMD[3:0]` (R106). -/
def Op.code (o : Op) : BitVec 4 := o.cmd.extractLsb' 0 4

/-- The format column of R104. -/
def Op.format : Op → Format
  | .setaddr => .fa
  | .rdbyte => .fa
  | .wrbyte => .fad
  | .beginrd => .f0
  | .endrd => .f0
  | .beginwr => .f0
  | .endwr => .f0
  | .bulkwr => .fal
  | .erase => .fl
  | .sdpen => .f0
  | .sdpdis => .f0

/-- The operation map, in its order. -/
def Op.all : List Op :=
  [.setaddr, .rdbyte, .wrbyte, .beginrd, .endrd, .beginwr, .endwr, .bulkwr, .erase, .sdpen, .sdpdis]

/-- The operation of a request. -/
def Instr.op : Instr → Op
  | .setaddr _ => .setaddr
  | .rdbyte _ => .rdbyte
  | .wrbyte _ _ => .wrbyte
  | .beginrd => .beginrd
  | .endrd => .endrd
  | .beginwr => .beginwr
  | .endwr => .endwr
  | .bulkwr _ _ => .bulkwr
  | .erase _ => .erase
  | .sdpen => .sdpen
  | .sdpdis => .sdpdis

/-- `hi8(a) = a[15:8]` (R10). -/
def hi8 (a : Word) : Byte := a.extractLsb' 8 8

/-- `lo8(a) = a[7:0]` (R10). -/
def lo8 (a : Word) : Byte := a.extractLsb' 0 8

/-- `{hi, lo}`: packet operands are high byte first (R105, R107). -/
def word16 (hi lo : Byte) : Word := hi ++ lo

/-- A decoder matches the whole `CMD` byte, mask `0xFF` (R106); `none` for a reserved value (R120). -/
def decodeCmd (cmd : Byte) : Option Op := Op.all.find? (fun o => o.cmd == cmd)

/-- The first `n` bytes, if that many are there. -/
def takeExactly : Nat → List Byte → Option (List Byte)
  | 0, _ => some []
  | _ + 1, [] => none
  | n + 1, b :: bs => (takeExactly n bs).map (b :: ·)

/-- A packet of format F0 (R105). -/
def decodeF0 (i : Instr) : Except DecodeError (Instr × Nat) := .ok (i, 1)

/-- The operand of formats FA and FL: one 16-bit field, packet length 3 (R105). -/
def decodeWord (f : Word → Instr) : List Byte → Except DecodeError (Instr × Nat)
  | hi :: lo :: _ => .ok (f (word16 hi lo), 3)
  | _ => .error .truncatedPacket

/-- The operands of format FAD, packet length 4 (R105). -/
def decodeFad (f : Word → Byte → Instr) : List Byte → Except DecodeError (Instr × Nat)
  | hi :: lo :: d :: _ => .ok (f (word16 hi lo) d, 4)
  | _ => .error .truncatedPacket

/-- The operands of format FAL, packet length `5 + LEN` with `LEN` as encoded (R105, R111). -/
def decodeFal (f : Word → List Byte → Instr) : List Byte → Except DecodeError (Instr × Nat)
  | ah :: al :: lh :: ll :: rest =>
    match takeExactly (word16 lh ll).toNat rest with
    | some payload => .ok (f (word16 ah al) payload, 5 + (word16 lh ll).toNat)
    | none => .error .truncatedPacket
  | _ => .error .truncatedPacket

/-- The operand bytes that follow a `CMD` byte (R104, R105). -/
def decodeOperands (o : Op) (bytes : List Byte) : Except DecodeError (Instr × Nat) :=
  match o with
  | .setaddr => decodeWord .setaddr bytes
  | .rdbyte => decodeWord .rdbyte bytes
  | .wrbyte => decodeFad .wrbyte bytes
  | .beginrd => decodeF0 .beginrd
  | .endrd => decodeF0 .endrd
  | .beginwr => decodeF0 .beginwr
  | .endwr => decodeF0 .endwr
  | .bulkwr => decodeFal .bulkwr bytes
  | .erase => decodeWord .erase bytes
  | .sdpen => decodeF0 .sdpen
  | .sdpdis => decodeF0 .sdpdis

/-- The request at the head of a stream and the length of its packet (R101). -/
def decode : List Byte → Except DecodeError (Instr × Nat)
  | [] => .error .noRequest
  | cmd :: bytes =>
    match decodeCmd cmd with
    | none => .error (.reservedCmd cmd)
    | some o => decodeOperands o bytes

/-- The packet of a well-formed request (R105). -/
def encode (i : Instr) : List Byte :=
  match i with
  | .setaddr a => [Op.setaddr.cmd, hi8 a, lo8 a]
  | .rdbyte a => [Op.rdbyte.cmd, hi8 a, lo8 a]
  | .wrbyte a v => [Op.wrbyte.cmd, hi8 a, lo8 a, v]
  | .beginrd => [Op.beginrd.cmd]
  | .endrd => [Op.endrd.cmd]
  | .beginwr => [Op.beginwr.cmd]
  | .endwr => [Op.endwr.cmd]
  | .bulkwr a payload =>
    [Op.bulkwr.cmd, hi8 a, lo8 a, hi8 (BitVec.ofNat 16 payload.length), lo8 (BitVec.ofNat 16 payload.length)]
      ++ payload
  | .erase n => [Op.erase.cmd, hi8 n, lo8 n]
  | .sdpen => [Op.sdpen.cmd]
  | .sdpdis => [Op.sdpdis.cmd]

/-- The length of the packet a stream begins with, from its first byte and, for FAL, its bytes 3 and 4 (R111).
A reserved `CMD` has length 1. -/
def packetLength : List Byte → Nat
  | [] => 0
  | cmd :: bytes =>
    match decodeCmd cmd with
    | none => 1
    | some o =>
      match o.format with
      | .f0 => 1
      | .fa => 3
      | .fad => 4
      | .fl => 3
      | .fal => 5 + (word16 (bytes.getD 2 0) (bytes.getD 3 0)).toNat

/-- Byte `i` of an instruction whose low `nbits` bits are `w` and whose other bits are 0. -/
def tableByte (nbits w i : Nat) : Byte := BitVec.ofNat 8 ((w % 2 ^ nbits) >>> (8 * i))

/-- The first five bytes of such an instruction: as many as fix its packet length. -/
def tableHeader (nbits w : Nat) : List Byte :=
  [tableByte nbits w 0, tableByte nbits w 1, tableByte nbits w 2, tableByte nbits w 3, tableByte nbits w 4]

/-- The packet of such an instruction: its header says how many bytes it has (R111). -/
def tablePacket (nbits w : Nat) : List Byte :=
  (tableHeader nbits w).take (packetLength (tableHeader nbits w))
    ++ (List.range (packetLength (tableHeader nbits w) - 5)).map (fun i => tableByte nbits w (5 + i))

/-- What the decoder reads from an instruction given as a table word. -/
def decodeTableWord (nbits w : Nat) : Option Instr :=
  match decode (tablePacket nbits w) with
  | .ok (i, _) => some i
  | .error _ => none

end Sys2Proof
end

