-- ==== Sys2Proof/Machine/State.lean ====
section
/-! DEFINITION. The state of the controller and of the attached EEPROM (spec file 10_state.md), the events of the
trace (R13), the reasons a step can stop, and the state after reset (R42). -/

namespace Sys2Proof.Machine

/-- The direction of the eight data pins together: `IN` or `OUT` (R29). -/
inductive Dir where
  | input
  | output
  deriving DecidableEq, Repr

/-- The event alphabet of the trace (R13). A pin level is a Bool: true is 1. -/
inductive Event where
  | ser (b : Bool)
  | srclk (b : Bool)
  | rclk (b : Bool)
  | dir (d : Dir)
  | d (k : Fin 8) (b : Bool)
  | rd (k : Fin 8) (b : Bool)
  | weN (b : Bool)
  | oeN (b : Bool)
  | ledProg (b : Bool)
  | ledRead (b : Bool)
  | waitUs (n : Nat)
  | waitPage
  deriving DecidableEq, Repr

/-- The array `MEM` (R37) as a canonical list of cells: addresses strictly rising and below `0x8000`, no cell
holding what an unlisted address reads as (Machine/Memory.lean). -/
abbrev Memory := List Host.Cell

/-- One write pulse the chip has received: the levels of its address lines and data pins (R39, R73). -/
abbrev Pulse := Addr × Byte

/-- Everything the spec gives the machine. The first three groups of fields are R20 (a), (b) and (c). `stream` and
`rp` are the host's request stream and its position (R101, R24), `traceRev` and `recordsRev` the observations
`TRACE` (R13) and the completion records (R103), newest first. `config` holds the open parameters of R9, and
`draws` counts the free values drawn so far: the last two are the model's own fields (logs 2, 3). -/
structure State where
  op : BitVec 4
  addr : Word
  len : Word
  wdata : Byte
  rdata : Byte
  status : Byte
  busy : Bool
  cur : Word
  rem : Word
  idx : BitVec 3
  sr : Word
  al : Word
  ser : Bool
  srclk : Bool
  rclk : Bool
  dir : Dir
  dout : Byte
  weN : Bool
  oeN : Bool
  ledProg : Bool
  ledRead : Bool
  tmrWe : Nat
  tmrPage : Nat
  mem : Memory
  sdp : Bool
  group : List Pulse
  stream : List Byte
  rp : Nat
  traceRev : List Event
  recordsRev : List (List Byte)
  config : Config
  draws : Nat
  deriving DecidableEq, Repr

/-- Stuck states: events for which the spec gives no step. -/
inductive Fault where
  /-- Raised by `step` while `BUSY = 1`: the host has no such move (R102, U20). Safe: the machine stops. -/
  | requestWhileBusy
  /-- Raised by `step` when the stream ends inside a packet: the stream is a concatenation of whole packets
  (R101), so the spec gives no step. DESIGN CHOICE (log 7). Safe: the machine stops. -/
  | truncatedPacket
  /-- Raised by `hostReset` while `BUSY = 1`: outside the model (R261, U9). Safe: the machine stops. -/
  | resetWhileBusy
  deriving DecidableEq, Repr

/-- Runs the spec marks refused: nothing can be claimed of them. -/
inductive Refusal where
  /-- Raised by `exec` for an instruction that has no meaning yet. No arm raises it in this model. Safe. -/
  | notModelled (mnemonic : String)
  /-- Raised by a page wait whose write group has no meaning in any source (R81, U3). Safe: the machine stops. -/
  | unrecognisedGroup
  /-- Raised by a write pulse with the pins outside the precondition of `MemWrite` (R73), for which no rule gives an
  effect: DEDUCED (log 11). No request accepted in a state of R41 reaches it. Safe: the machine stops. -/
  | writePulseOutsideContract
  deriving DecidableEq, Repr

/-- What a request or a micro-operation that can stop answers. -/
abbrev Result := Host.Outcome State Fault Refusal

namespace State

/-- The state after reset: the values of the table of R42. Where that table says "unspecified", 0; the launch
contents of `MEM` and `SDP` are "nothing listed" and "unprotected" (D31). DESIGN CHOICE (logs 1, 4). -/
def reset : State where
  op := 0
  addr := 0
  len := 0
  wdata := 0
  rdata := 0
  status := 0x00
  busy := false
  cur := 0
  rem := 0
  idx := 0
  sr := 0
  al := 0
  ser := false
  srclk := false
  rclk := false
  dir := .input
  dout := 0
  weN := true
  oeN := false
  ledProg := false
  ledRead := false
  tmrWe := 0
  tmrPage := 0
  mem := []
  sdp := false
  group := []
  stream := []
  rp := 0
  traceRev := []
  recordsRev := []
  config := Config.default
  draws := 0

end State

end Sys2Proof.Machine
end

