-- ==== Sys2Proof/Machine/Operands.lean ====
section
/-! DEFINITION. Operand checks and operand arithmetic (R14, R115, R177, R223, R224). -/

namespace Sys2Proof.Machine

/-- `ADDR > 0x7FFF` (R223). -/
def addrOutOfRange (a : Word) : Bool := Config.maxRomSize ≤ a.toNat

/-- `ADDR + LEN > 0x8000`, computed without wrap-around (R224). -/
def spanOutOfRange (a : Word) (n : Nat) : Bool := Config.maxRomSize < a.toNat + n

/-- `LEN > 0x8000` (R224). -/
def eraseOutOfRange (n : Word) : Bool := Config.maxRomSize < n.toNat

/-- The level of the address lines `A14..A0` when the latch holds `al`: `AL[15]` reaches nothing (R27). -/
def addrLines (al : Word) : Addr := al.extractLsb' 0 15

/-- `page(a) = a >> 6` (R75). -/
def page (a : Addr) : Nat := a.toNat >>> 6

/-- The pacing predicate, on the cursor after the increment and the count of bytes written so far (R177). -/
def pace (r : PaceRule) (cur : Word) (written : Nat) : Bool :=
  match r with
  | .nextAddress => cur &&& 0x3F == 0
  | .byteCount => written &&& 0x3F == 0
  | .writtenAddress => (cur - 1) &&& 0x3F == 0

end Sys2Proof.Machine
end

