-- ==== Sys2Proof/Machine/Flags.lean ====
section
/-! DEFINITION. The status-like bits (10_state.md section 9): the bracket predicate and the completion status. The
block has no condition codes. -/

namespace Sys2Proof.Machine

/-- The four refusal causes (R222 to R225). -/
inductive ErrCode where
  | errOpcode
  | errAddr
  | errLen
  | errState
  deriving DecidableEq, Repr

/-- `STATUS` of a request that was executed (R103). -/
def statusOk : Byte := 0x00

/-- `STATUS` of a request that was refused (R222 to R225). -/
def ErrCode.status : ErrCode → Byte
  | .errOpcode => 0x01
  | .errAddr => 0x02
  | .errLen => 0x03
  | .errState => 0x04

/-- `WR_OPEN`: the predicate `DIR = OUT` (R35). -/
def wrOpen (s : State) : Bool := s.dir == .output

end Sys2Proof.Machine
end

