-- ==== Sys2Proof/Machine/Memory.lean ====
section
/-! DEFINITION. The EEPROM array as plain data in one canonical form (R37, R60). Its keys are addresses as natural
numbers; the chip's fifteen address lines reach exactly `0x0000` to `0x7FFF`, so no other address is ever accessed. -/

namespace Sys2Proof.Machine

/-- What an address that no cell lists reads as: the erased byte of R84. The launch contents are open (D31), and
every array is the contents of some canonical list. DESIGN CHOICE (log 4). -/
def blankByte : Byte := 0xFF

/-- `MEM[a]`. -/
def readCell : Memory → Nat → Byte
  | [], _ => blankByte
  | (k, v) :: m, a => if k = a then v else readCell m a

/-- A new cell, unless it would hold what an unlisted address reads as. -/
def consCell (a : Nat) (v : Byte) (m : Memory) : Memory :=
  if v = blankByte then m else (a, v) :: m

/-- `MEM[a] <- v`, keeping the canonical form. -/
def writeCell : Memory → Nat → Byte → Memory
  | [], a, v => consCell a v []
  | (k, w) :: m, a, v =>
    if a < k then consCell a v ((k, w) :: m)
    else if a = k then consCell a v m
    else (k, w) :: writeCell m a v

/-- The canonical form. -/
abbrev Memory.wf (m : Memory) : Prop :=
  m.Pairwise (fun c d => c.1 < d.1) ∧ ∀ c ∈ m, c.1 < Config.maxRomSize ∧ c.2 ≠ blankByte

end Sys2Proof.Machine
end

