-- ==== Sys2Proof/Machine/Device.lean ====
section
/-! DEFINITION. The attached EEPROM: reads, write pulses, and the commit of a write group (R70 to R84), with the two
SDP tables (R200, R201). -/

namespace Sys2Proof.Machine

/-- The enable table `EN` (R201). -/
def sdpEnTable : List (Word × Byte) :=
  [(0x5555, 0xAA), (0x2AAA, 0x55), (0x5555, 0xA0)]

/-- The disable table `DIS` (R200). -/
def sdpDisTable : List (Word × Byte) :=
  [(0x5555, 0xAA), (0x2AAA, 0x55), (0x5555, 0x80), (0x5555, 0xAA), (0x2AAA, 0x55), (0x5555, 0x20)]

/-- The write pulse that a table entry reaches the chip as. -/
def pulseOf (e : Word × Byte) : Pulse := (addrLines e.1, e.2)

/-- `MemWrite(a, 1, v)`: the pulse joins the write group (R73). -/
def memWrite (a : Addr) (v : Byte) (s : State) : State :=
  { s with group := s.group ++ [(a, v)] }

/-- The precondition of `MemRead` (R72). -/
def memReadable (s : State) : Bool :=
  !s.oeN && s.weN && s.dir == .input && s.group.isEmpty

/-- `MemRead(a, 1)` under its precondition (R72). -/
def memRead (a : Addr) (s : State) : Byte := readCell s.mem a.toNat

/-- The precondition of `MemWrite` on the pins, which is that of the write pulse (R73, R153). -/
def pulseInContract (s : State) : Bool :=
  s.weN && s.oeN && s.dir == .output

/-- What the data pins carry: the controller's byte in an open bracket, the chip's byte while a read is possible,
and no value otherwise, in particular while both sides drive the bus (R277, R278, U7). -/
def dataBus (s : State) : Option Byte :=
  match s.dir, s.oeN with
  | .output, true => some s.dout
  | .output, false => none
  | .input, _ => if memReadable s then some (memRead (addrLines s.al) s) else none

/-- The cases of R75, in its order. -/
inductive GroupKind where
  | empty
  | enable
  | disable
  | data
  | defective
  | other
  deriving DecidableEq, Repr

/-- A data group: 1 to 64 pulses, all in one page (R75 case 4). -/
def isDataGroup (g : List Pulse) : Bool :=
  match g with
  | [] => false
  | p :: rest => g.length ≤ Config.pageSize && rest.all (fun q => page q.1 == page p.1)

/-- `g` is made from the table by deleting or reordering elements: no pulse occurs in it more often than there
(R75 case 5). -/
def isPartOf (g table : List Pulse) : Bool :=
  g.all (fun p => g.count p ≤ table.count p)

/-- Which case of R75 a write group is: the first that matches. -/
def classifyGroup (g : List Pulse) : GroupKind :=
  if g = [] then .empty
  else if g = sdpEnTable.map pulseOf then .enable
  else if g = sdpDisTable.map pulseOf then .disable
  else if isDataGroup g then .data
  else if isPartOf g (sdpEnTable.map pulseOf) || isPartOf g (sdpDisTable.map pulseOf) then .defective
  else .other

/-- A data group stored in order: a later pair for an address wins (R76). -/
def storeGroup (g : List Pulse) (m : Memory) : Memory :=
  g.foldl (fun m p => writeCell m p.1.toNat p.2) m

/-- Whether the bytes of an exact SDP sequence are stored: only under `SDP_SEQ_STORES` on a chip that was
unprotected before (R78, R79, D24). -/
def storeSequence (last : Byte) (s : State) : Memory :=
  if s.config.sdpSeqStores && !s.sdp then writeCell (writeCell s.mem 0x5555 last) 0x2AAA 0x55 else s.mem

/-- `MEM[a] <- any(8)` (R80). -/
def storeAny (a : Addr) (s : State) : State :=
  { s with mem := writeCell s.mem a.toNat (Config.freeBits 8 s.draws), draws := s.draws + 1 }

/-- A defective command leaves any value at each address that occurs in it (R80). -/
def storeAnyGroup (g : List Pulse) (s : State) : State :=
  g.foldl (fun s p => storeAny p.1 s) s

/-- The commit at the end of a page wait (R75 to R81). -/
def commitGroup (s : State) : Result :=
  match classifyGroup s.group with
  | .empty => .next { s with group := [] }
  | .enable => .next { s with mem := storeSequence 0xA0 s, sdp := true, group := [] }
  | .disable => .next { s with mem := storeSequence 0x20 s, sdp := false, group := [] }
  | .data => .next { s with mem := if s.sdp then s.mem else storeGroup s.group s.mem, group := [] }
  | .defective => .next { storeAnyGroup s.group s with group := [] }
  | .other => .refused .unrecognisedGroup

end Sys2Proof.Machine
end

