-- ==== Sys2Proof/Machine/Ops.lean ====
section
/-! DEFINITION. The named operations every meaning is built from: the trace, request acceptance, completion and
refusal, and the micro-operations of R12. -/

namespace Sys2Proof.Machine

/-- One thing after another; a stop ends the run. -/
def andThen (r : Result) (k : State → Result) : Result :=
  match r with
  | .next s => k s
  | .fault f => .fault f
  | .refused f => .refused f

/-- `TRACE`, in order (R13). -/
def State.trace (s : State) : List Event := s.traceRev.reverse

/-- The completion records the host has been given, in order (R103). -/
def State.records (s : State) : List (List Byte) := s.recordsRev.reverse

/-- `emit(e)` for each event of a list, in order (R11). -/
def emit (es : List Event) (s : State) : State :=
  { s with traceRev := es.reverseAux s.traceRev }

/-! ### Requests -/

/-- Acceptance: `OP` holds the operation and `BUSY` is 1 until completion (R21, R23, R24). -/
def accept (o : Op) (s : State) : State := { s with op := o.code, busy := true }

/-- The operand register `ADDR` loaded at acceptance (R21). -/
def loadAddr (a : Word) (s : State) : State := { s with addr := a }

/-- The operand register `LEN` loaded at acceptance (R21). -/
def loadLen (n : Word) (s : State) : State := { s with len := n }

/-- The operand register `WDATA` loaded at acceptance (R21). -/
def loadWdata (v : Byte) (s : State) : State := { s with wdata := v }

/-- The result register `RDATA` written by a byte read (R22). -/
def setRdata (v : Byte) (s : State) : State := { s with rdata := v }

/-- The completion record (R103): `STATUS`, and `RDATA` if a byte was read. -/
def completeWith (st : Byte) (readBack : Bool) (s : State) : State :=
  { s with
    status := st
    busy := false
    recordsRev := (if readBack then [st, s.rdata] else [st]) :: s.recordsRev }

/-- `raise Refused(code)` (R226, R229): the one exceptional outcome of a request. Nothing changes but `STATUS`, and
the record is the one byte `code`; `BUSY` returns to 0. There is no handler and so no return (R229, R230). -/
def refuse (c : ErrCode) (s : State) : Result := .next (completeWith c.status false s)

/-! ### Working registers -/

/-- `CUR <- a ; REM <- n` (R176, R178). -/
def startCursor (a n : Word) (s : State) : State := { s with cur := a, rem := n }

/-- `CUR <- CUR + 1 ; REM <- REM - 1` (R176). -/
def advanceCursor (s : State) : State := { s with cur := s.cur + 1, rem := s.rem - 1 }

/-- `IDX <- k` (R202). -/
def setIndex (k : Nat) (s : State) : State := { s with idx := BitVec.ofNat 3 k }

/-- After completion the values of `CUR` and `REM` are unspecified (R25): free values. -/
def forgetCursor (s : State) : State :=
  { s with cur := Config.freeBits 16 s.draws, rem := Config.freeBits 16 (s.draws + 1), draws := s.draws + 2 }

/-- After completion the value of `IDX` is unspecified (R25): a free value. -/
def forgetIndex (s : State) : State :=
  { s with idx := Config.freeBits 3 s.draws, draws := s.draws + 1 }

/-! ### The address latch -/

/-- `((v << 1) | b)` truncated to 16 bits (R16). -/
def shiftIn (v : Word) (b : Bool) : Word := (v <<< 1) ||| (BitVec.ofBool b).setWidth 16

/-- `shift_bit(b)` (R141): the stages move at the 0-to-1 edge of `SRCLK`. -/
def shiftBit (b : Bool) (s : State) : State :=
  let s := emit [.ser b] { s with ser := b }
  let s := emit [.srclk true] { s with srclk := true, sr := shiftIn s.sr s.ser }
  emit [.srclk false] { s with srclk := false }

/-- `shift_byte(v)`: most significant bit first (R142). -/
def shiftByte (v : Byte) (s : State) : State :=
  [7, 6, 5, 4, 3, 2, 1, 0].foldl (fun s i => shiftBit (v.getLsbD i) s) s

/-- `latch_pulse()` (R143): the latch commits at the 0-to-1 edge of `RCLK`. -/
def latchPulse (s : State) : State :=
  let s := emit [.rclk false] { s with rclk := false }
  let s := emit [.rclk true] { s with rclk := true, al := s.sr }
  emit [.rclk false] { s with rclk := false }

/-- `set_address(a)`: high byte, low byte, latch pulse, always in full (R144, R145). -/
def setAddress (a : Word) (s : State) : State :=
  latchPulse (shiftByte (lo8 a) (shiftByte (hi8 a) s))

/-! ### Data bus and control pins -/

/-- `set_dir(d)` (R150). -/
def setDir (d : Dir) (s : State) : State := emit [.dir d] { s with dir := d }

/-- The eight pin writes of `drive(v)`, first pin to last (R151). -/
def driveEvents (v : Byte) : List Event :=
  [0, 1, 2, 3, 4, 5, 6, 7].map (fun k : Fin 8 => Event.d k (v.getLsbD k))

/-- `drive(v)` (R151). Write enable is high meanwhile, so mixtures of old and new bits reach nothing. -/
def drive (v : Byte) (s : State) : State := { emit (driveEvents v) s with dout := v }

/-- The level of data pin `D<k>`: the chip's bit under the precondition of `MemRead`, else `any(1)` (R152, R72). -/
def pinLevel (k : Fin 8) (s : State) : Bool :=
  if memReadable s then (memRead (addrLines s.al) s).getLsbD k else (Config.freeBits 1 s.draws).getLsbD 0

/-- The state after that level has been taken: a draw is used up if one was made. -/
def afterPin (s : State) : State := if memReadable s then s else { s with draws := s.draws + 1 }

/-- One iteration of `sample()` (R152): `v <- ((v << 1) | b)[7:0]`. -/
def sampleBit (vs : Byte × State) (k : Fin 8) : Byte × State :=
  ((vs.1 <<< 1) ||| (BitVec.ofBool (pinLevel k vs.2)).setWidth 8, emit [.rd k (pinLevel k vs.2)] (afterPin vs.2))

/-- `sample()`: the most significant pin first (R152). -/
def sample (s : State) : Byte × State :=
  [7, 6, 5, 4, 3, 2, 1, 0].foldl sampleBit (0, s)

/-- A write-enable level held for at least `us` microseconds, timed by `TMR_WE`, which is loaded and then runs out
(R36, R153, R233). -/
def holdWe (level : Bool) (us : Nat) (s : State) : State :=
  let s := emit [.weN level] { s with weN := level, tmrWe := s.config.ticks us }
  emit [.waitUs us] { s with tmrWe := 0 }

/-- `we_pulse()` (R153). The pulse delivers `MemWrite` at the rising edge; outside the precondition of R73 the spec
gives it no effect. -/
def wePulse (s : State) : Result :=
  if pulseInContract s then
    let s := holdWe false Config.tWeLowUs s
    let s := memWrite (addrLines s.al) s.dout s
    .next (holdWe true Config.tWeHighUs s)
  else .refused .writePulseOutsideContract

/-- `write_byte(a, v)`: address, then data, then the pulse (R157). -/
def writeByte (a : Word) (v : Byte) (s : State) : Result := wePulse (drive v (setAddress a s))

/-- `read_byte(a)`: address, then the samples (R158). -/
def readByte (a : Word) (s : State) : Byte × State := sample (setAddress a s)

/-- `wait_page()`: timed by `TMR_PAGE`; the device commits its group when it ends (R170, R234, R75). -/
def waitPage (s : State) : Result :=
  let s := emit [.waitPage] { s with tmrPage := s.config.ticks Config.tPageUs }
  commitGroup { s with tmrPage := 0 }

/-- `set_oe(x)` (R171). -/
def setOe (x : Bool) (s : State) : State := emit [.oeN x] { s with oeN := x }

/-- `set_led_prog(x)` (R171). -/
def setLedProg (x : Bool) (s : State) : State := emit [.ledProg x] { s with ledProg := x }

/-- `set_led_read(x)` (R171). -/
def setLedRead (x : Bool) (s : State) : State := emit [.ledRead x] { s with ledRead := x }

/-- `begin_write()` (R182). -/
def beginWrite (s : State) : State := setOe true (setDir .output (setLedProg true s))

/-- `end_write()` (R183): the wait is unconditional. -/
def endWrite (s : State) : Result :=
  andThen (waitPage s) fun s => .next (setLedProg false (setDir .input (setOe false s)))

end Sys2Proof.Machine
end

