-- ==== Sys2Proof/Machine/AddressLatch.lean ====
section
/-! DEFINITION. The address set (spec file 40_address_latch.md). -/

namespace Sys2Proof.Machine

/-- `SETADDR a` (R140): legal in any bracket state. -/
def execSetaddr (a : Word) (s : State) : Result :=
  if addrOutOfRange a then refuse .errAddr s
  else .next (completeWith statusOk false (setAddress a (loadAddr a (accept .setaddr s))))

end Sys2Proof.Machine
end

