-- ==== Sys2Proof/Machine/Brackets.lean ====
section
/-! DEFINITION. The write and read brackets (spec file 42_brackets_bulk.md, section 2). -/

namespace Sys2Proof.Machine

/-- `BEGINWR` (R172): only with the write bracket closed. -/
def execBeginwr (s : State) : Result :=
  if wrOpen s then refuse .errState s
  else .next (completeWith statusOk false (beginWrite (accept .beginwr s)))

/-- `ENDWR` (R173): only with the write bracket open. -/
def execEndwr (s : State) : Result :=
  if !wrOpen s then refuse .errState s
  else
    andThen (endWrite (accept .endwr s)) fun s => .next (completeWith statusOk false s)

/-- `BEGINRD` (R174): legal in any state. -/
def execBeginrd (s : State) : Result :=
  .next (completeWith statusOk false (setLedRead true (accept .beginrd s)))

/-- `ENDRD` (R175): legal in any state. -/
def execEndrd (s : State) : Result :=
  .next (completeWith statusOk false (setLedRead false (accept .endrd s)))

end Sys2Proof.Machine
end

