-- ==== Sys2Proof/Machine/Bulk.lean ====
section
/-! DEFINITION. Bulk write and erase (spec file 42_brackets_bulk.md, section 3). -/

namespace Sys2Proof.Machine

/-- `if pace(CUR): wait_page()`, `i` bytes having been written (R176, R177). -/
def paceWait (i : Nat) (s : State) : Result :=
  if pace s.config.paceRule s.cur i then waitPage s else .next s

/-- The `while REM > 0` loop of R176: the payload bytes still to write, `i` of them written already. -/
def writeRun : List Byte → Nat → State → Result
  | [], _, s => .next s
  | v :: rest, i, s =>
    andThen (writeByte s.cur v s) fun s =>
    andThen (paceWait (i + 1) (advanceCursor s)) fun s =>
    writeRun rest (i + 1) s

/-- `begin_write`, `CUR <- a ; REM <- n`, the loop, `end_write`: the body of R176 and R178. -/
def pacedWrite (a : Word) (payload : List Byte) (s : State) : Result :=
  andThen (writeRun payload 0 (startCursor a (BitVec.ofNat 16 payload.length) (beginWrite s))) fun s =>
  andThen (endWrite s) fun s =>
  .next (forgetCursor s)

/-- `BULKWR a, P` (R176): only with the write bracket closed. -/
def execBulkwr (a : Word) (payload : List Byte) (s : State) : Result :=
  if addrOutOfRange a then refuse .errAddr s
  else if spanOutOfRange a payload.length then refuse .errLen s
  else if wrOpen s then refuse .errState s
  else
    andThen (pacedWrite a payload (loadLen (BitVec.ofNat 16 payload.length) (loadAddr a (accept .bulkwr s)))) fun s =>
      .next (completeWith statusOk false s)

/-- `ERASE n` (R178): bytes `0xFF` from address 0; `ADDR` is not an operand and is not changed. -/
def execErase (n : Word) (s : State) : Result :=
  if eraseOutOfRange n then refuse .errLen s
  else if wrOpen s then refuse .errState s
  else
    andThen (pacedWrite 0 (List.replicate n.toNat 0xFF) (loadLen n (accept .erase s))) fun s =>
      .next (completeWith statusOk false s)

end Sys2Proof.Machine
end

