-- ==== Sys2Proof/Machine/ByteAccess.lean ====
section
/-! DEFINITION. Byte read and byte write (spec file 41_byte_access.md). -/

namespace Sys2Proof.Machine

/-- `RDBYTE a` (R155): only with the write bracket closed. -/
def execRdbyte (a : Word) (s : State) : Result :=
  if addrOutOfRange a then refuse .errAddr s
  else if wrOpen s then refuse .errState s
  else
    let vs := readByte a (loadAddr a (accept .rdbyte s))
    .next (completeWith statusOk true (setRdata vs.1 vs.2))

/-- `WRBYTE a, v` (R154): only with a write bracket open. -/
def execWrbyte (a : Word) (v : Byte) (s : State) : Result :=
  if addrOutOfRange a then refuse .errAddr s
  else if !wrOpen s then refuse .errState s
  else
    andThen (writeByte a v (loadWdata v (loadAddr a (accept .wrbyte s)))) fun s =>
      .next (completeWith statusOk false s)

end Sys2Proof.Machine
end

