-- ==== Sys2Proof/Machine/Sdp.lean ====
section
/-! DEFINITION. The SDP unlock sequencer (spec file 43_sdp.md). The controller never tests the lock (R204). -/

namespace Sys2Proof.Machine

/-- The table walk of R202 and R203: `IDX` holds the index of the write being issued. -/
def writeTable : List (Word × Byte) → Nat → State → Result
  | [], _, s => .next s
  | e :: rest, k, s =>
    andThen (writeByte e.1 e.2 (setIndex k s)) fun s =>
    writeTable rest (k + 1) s

/-- An exact sequence in its own bracket, with no page wait inside it (R202, R203). -/
def issueSequence (table : List (Word × Byte)) (s : State) : Result :=
  andThen (writeTable table 0 (beginWrite s)) fun s =>
  andThen (endWrite s) fun s =>
  .next (forgetIndex s)

/-- `SDPEN` (R203): only with the write bracket closed. -/
def execSdpen (s : State) : Result :=
  if wrOpen s then refuse .errState s
  else
    andThen (issueSequence sdpEnTable (accept .sdpen s)) fun s => .next (completeWith statusOk false s)

/-- `SDPDIS` (R202): only with the write bracket closed. -/
def execSdpdis (s : State) : Result :=
  if wrOpen s then refuse .errState s
  else
    andThen (issueSequence sdpDisTable (accept .sdpdis s)) fun s => .next (completeWith statusOk false s)

end Sys2Proof.Machine
end

