-- ==== Sys2Proof/Machine/Dispatch.lean ====
section
/-! DEFINITION. What each request does, one arm per row of the operation map (R104). -/

namespace Sys2Proof.Machine

def exec (i : Instr) (s : State) : Host.Outcome State Fault Refusal :=
  match i with
  | .setaddr a => Sys2Proof.Machine.execSetaddr a s
  | .rdbyte a => Sys2Proof.Machine.execRdbyte a s
  | .wrbyte a v => Sys2Proof.Machine.execWrbyte a v s
  | .beginrd => Sys2Proof.Machine.execBeginrd s
  | .endrd => Sys2Proof.Machine.execEndrd s
  | .beginwr => Sys2Proof.Machine.execBeginwr s
  | .endwr => Sys2Proof.Machine.execEndwr s
  | .bulkwr a p => Sys2Proof.Machine.execBulkwr a p s
  | .erase n => Sys2Proof.Machine.execErase n s
  | .sdpen => Sys2Proof.Machine.execSdpen s
  | .sdpdis => Sys2Proof.Machine.execSdpdis s

end Sys2Proof.Machine
end

