-- ==== Sys2Proof/Machine/Fetch.lean ====
section
/-! DEFINITION. The request stream (R101): what the controller finds at `RP`, how a packet is consumed, how a packet is
placed, and what it does when it finds no request. -/

namespace Sys2Proof.Machine

/-- The bytes of the request stream from `RP` on (R101). -/
def pending (s : State) : List Byte := s.stream.drop s.rp

/-- `RP <- RP + n` (R24, R101): a packet is consumed whole, executed or refused. -/
def consume (n : Nat) (s : State) : State := { s with rp := s.rp + n }

/-- What bytes that are not a request lead to. Between requests the controller is simply idle (R238). A reserved
`CMD` is a packet of one byte, refused with ERR_OPCODE (R120, R222). A packet cut short has no step (log 7). -/
def noInstr (e : DecodeError) (s : State) : Result :=
  match e with
  | .noRequest => .next s
  | .reservedCmd _ => refuse .errOpcode (consume 1 s)
  | .truncatedPacket => .fault .truncatedPacket

/-- A packet placed where the next request is read, the controller free to accept it. -/
def placePacket (packet : List Byte) (s : State) : State :=
  { s with
    busy := false
    stream := s.stream.take s.rp ++ List.replicate (s.rp - s.stream.length) 0 ++ packet }

end Sys2Proof.Machine
end

