-- ==== Sys2Proof/Machine/Step.lean ====
section
/-! DEFINITION. One step: one request, from its packet to its completion record (R100 to R103). -/

namespace Sys2Proof.Machine

/-- A request is accepted only when `BUSY = 0` (R102). The request at `RP` is decoded, its packet is consumed and it
runs to completion (R101, R180). -/
def step (s : State) : Host.Outcome State Fault Refusal :=
  if s.busy then .fault .requestWhileBusy
  else
    match decode (pending s) with
    | .ok (i, n) => exec i (consume n s)
    | .error e => noInstr e s

/-- `s` with an instruction, given as a table word, stored where `step` reads its next request (log 6). -/
def State.withFetchWord (s : State) (nbits w : Nat) : State := placePacket (tablePacket nbits w) s

end Sys2Proof.Machine
end

