-- ==== Sys2Proof/Machine/Reset.lean ====
section
/-! DEFINITION. The host's other move: power-on or an external reset of the controller (R240, R260, R261). It is not a
request, so `step` never performs it. -/

namespace Sys2Proof.Machine

/-- A machine at launch: reset, with the launch parameters of R9 and R42 (the array, the SDP latch) and the open
parameters given (D31). -/
def launch (mem : Memory) (sdp : Bool) (config : Config) : State :=
  { State.reset with mem := mem, sdp := sdp, config := config }

/-- Every piece of controller state at its value of R42, the unspecified ones free values (U8); `MEM` and `SDP` are
not touched (R71, R260), no event is produced (R262), and the host begins a new request stream. -/
def controllerReset (stream : List Byte) (s : State) : State :=
  { State.reset with
    op := Config.freeBits 4 s.draws
    addr := Config.freeBits 16 (s.draws + 1)
    len := Config.freeBits 16 (s.draws + 2)
    wdata := Config.freeBits 8 (s.draws + 3)
    rdata := Config.freeBits 8 (s.draws + 4)
    cur := Config.freeBits 16 (s.draws + 5)
    rem := Config.freeBits 16 (s.draws + 6)
    idx := Config.freeBits 3 (s.draws + 7)
    sr := Config.freeBits 16 (s.draws + 8)
    al := Config.freeBits 16 (s.draws + 9)
    ser := (Config.freeBits 1 (s.draws + 10)).getLsbD 0
    dout := Config.freeBits 8 (s.draws + 11)
    mem := s.mem
    sdp := s.sdp
    stream := stream
    traceRev := s.traceRev
    recordsRev := s.recordsRev
    config := s.config
    draws := s.draws + 12 }

/-- Reset while `BUSY = 1` is outside the model (R261, U9): it has no step. -/
def hostReset (stream : List Byte) (s : State) : Result :=
  if s.busy then .fault .resetWhileBusy else .next (controllerReset stream s)

end Sys2Proof.Machine
end

