-- ==== Sys2Proof/Machine/Verbs.lean ====
section
/-! DEFINITION. The console verbs of the surrounding software as pseudo-instructions (R125 to R131): which requests
each one hands the controller. Outside the block (R4): nothing of the machine calls this file. -/

namespace Sys2Proof.Machine

/-- A console line the surrounding software has parsed. Numeric tokens are 16-bit values (R125 to R127, U11). A data
line is a line in Writing mode, its tokens already bytes (R126). `invalid` is a line it answers with an error of
R221 for its tokens. -/
inductive Verb where
  | read (addr count : Option Word)
  | write (addr : Option Word)
  | dataLine (bytes : List Byte)
  | erase (len : Option Word)
  | lock
  | unlock
  | help
  | version
  | binary
  | empty
  | unknown
  | invalid
  deriving DecidableEq, Repr

/-- What of the surrounding software the expansions depend on: `current_address`, which may reach `0x8000` (C3), and
the two informative parameters `READ_DEFAULT_BOUNDARY` and `CALLER_MAX_BURST` (R9, D38). -/
structure Caller where
  ca : Nat
  readDefaultBoundary : Nat
  maxBurst : Nat
  deriving DecidableEq, Repr

/-- The first address of an `r` verb (R125). -/
def readStart (c : Caller) (addr : Option Word) : Nat := (addr.map (·.toNat)).getD c.ca

/-- How many bytes an `r` verb reads from `a`: the given count, or up to the next boundary, clamped to the end of the
array (R125, C4). -/
def readCount (c : Caller) (a : Nat) (count : Option Word) : Nat :=
  min ((count.map (·.toNat)).getD (c.readDefaultBoundary - a % c.readDefaultBoundary)) (Config.maxRomSize - a)

/-- `RDBYTE a` to `RDBYTE a+n-1` inside a read bracket (R125). -/
def readRequests (a n : Nat) : List Instr :=
  .beginrd :: (List.range n).map (fun j => .rdbyte (BitVec.ofNat 16 (a + j))) ++ [.endrd]

/-- The length of an `e` verb, clamped (R127). -/
def eraseLength (len : Option Word) : Nat := min ((len.map (·.toNat)).getD Config.maxRomSize) Config.maxRomSize

/-- The requests of a verb and the caller's address after it. `none`: a data line longer than the cap of R126, of
which the source does not say what happens (U16). -/
def expandVerb (c : Caller) (v : Verb) : Option (List Instr × Nat) :=
  match v with
  | .read addr count =>
    if addr.isSome && Config.maxRomSize ≤ readStart c addr then some ([], c.ca)
    else
      some (readRequests (readStart c addr) (readCount c (readStart c addr) count),
        readStart c addr + readCount c (readStart c addr) count)
  | .write addr => some ([], if readStart c addr < Config.maxRomSize then readStart c addr else c.ca)
  | .dataLine bytes =>
    if bytes = [] then some ([], c.ca)
    else if bytes.length ≤ min c.maxBurst (Config.maxRomSize - c.ca) then
      some ([.bulkwr (BitVec.ofNat 16 c.ca) bytes], c.ca + bytes.length)
    else none
  | .erase len => some ([.erase (BitVec.ofNat 16 (eraseLength len))], 0)
  | .lock => some ([.sdpen], c.ca)
  | .unlock => some ([.sdpdis], c.ca)
  | .help => some ([], c.ca)
  | .version => some ([], c.ca)
  | .binary => some ([], c.ca)
  | .empty => some ([], c.ca)
  | .unknown => some ([], c.ca)
  | .invalid => some ([], c.ca)

end Sys2Proof.Machine
end

