-- ==== Sys2Proof/Safety.lean ====
section
/-! DEFINITION. The terms claims use: the invariant of R41, a safe step, the preconditions of the two chip accesses, the
refusal table, and the traces of spec file 95_test_vectors.md, each written from the spec's words and not from the
machine's definitions. -/

namespace Sys2Proof.Machine

/-! ### Invariant and safe steps -/

/-- The invariants of R41 at a moment at which `BUSY = 0`, with the canonical form of `MEM`. -/
structure State.Inv (s : State) : Prop where
  idle : s.busy = false
  weHigh : s.weN = true
  rclkLow : s.rclk = false
  srclkLow : s.srclk = false
  groupClosed : s.dir = .input → s.group = []
  oeOpen : s.oeN = true ↔ s.dir = .output
  ledOpen : s.ledProg = true ↔ s.dir = .output
  tmrWeIdle : s.tmrWe = 0
  tmrPageIdle : s.tmrPage = 0
  memWf : s.mem.wf

/-- A step is safe if it does not stop and leaves the invariant standing. -/
def SafeStep (s : State) : Prop := ∃ t, step s = .next t ∧ t.Inv

/-- The write bracket is closed, no write is pending and write enable is idle: where R41 puts every state between
requests in which `DIR = IN`, as far as the composite operations depend on it. -/
structure State.Closed (s : State) : Prop where
  dirIn : s.dir = .input
  weHigh : s.weN = true
  noGroup : s.group = []

/-- The precondition of `MemRead` (R72). -/
structure State.Readable (s : State) : Prop extends State.Closed s where
  oeLow : s.oeN = false

/-- The precondition of `MemWrite` on the pins (R73): a write bracket is open. -/
structure State.Writable (s : State) : Prop where
  dirOut : s.dir = .output
  oeHigh : s.oeN = true
  weHigh : s.weN = true

/-- The state without the chip's contents: what the controller itself is (R204). -/
def State.forgetDevice (s : State) : State := { s with mem := [], sdp := false }

/-- A sampled level forgotten, the event kept. -/
def Event.forgetLevel : Event → Event
  | .rd k _ => .rd k false
  | e => e

/-- The state without the chip's contents and without the bytes read from it. -/
def State.forgetReads (s : State) : State :=
  { s.forgetDevice with
    rdata := 0
    traceRev := s.traceRev.map Event.forgetLevel
    recordsRev := s.recordsRev.map (·.take 1) }

/-- An outcome seen through a view of the state. -/
def viewOutcome (f : State → State) : Result → Result
  | .next s => .next (f s)
  | .fault r => .fault r
  | .refused r => .refused r

/-- Requests executed one after another. -/
def execAll : List Instr → State → Result
  | [], s => .next s
  | i :: is, s =>
    match exec i s with
    | .next t => execAll is t
    | .fault r => .fault r
    | .refused r => .refused r

/-! ### The refusal table -/

/-- The `STATUS` a request is refused with, if it is: R223, R224 and R225, in the priority of R227. -/
def refusalStatus (i : Instr) (d : Dir) : Option Byte :=
  match i with
  | .setaddr a => if 0x7FFF < a.toNat then some 0x02 else none
  | .rdbyte a => if 0x7FFF < a.toNat then some 0x02 else if d = .input then none else some 0x04
  | .wrbyte a _ => if 0x7FFF < a.toNat then some 0x02 else if d = .output then none else some 0x04
  | .beginrd => none
  | .endrd => none
  | .beginwr => if d = .input then none else some 0x04
  | .endwr => if d = .output then none else some 0x04
  | .bulkwr a p =>
    if 0x7FFF < a.toNat then some 0x02
    else if 0x8000 < a.toNat + p.length then some 0x03
    else if d = .input then none else some 0x04
  | .erase n => if 0x8000 < n.toNat then some 0x03 else if d = .input then none else some 0x04
  | .sdpen => if d = .input then none else some 0x04
  | .sdpdis => if d = .input then none else some 0x04

/-! ### The device -/

/-- The three pairs of the enable sequence as the chip receives them (R75, R201). -/
def enableGroup : List Pulse := [(0x5555, 0xAA), (0x2AAA, 0x55), (0x5555, 0xA0)]

/-- The six pairs of the disable sequence as the chip receives them (R75, R200). -/
def disableGroup : List Pulse :=
  [(0x5555, 0xAA), (0x2AAA, 0x55), (0x5555, 0x80), (0x5555, 0xAA), (0x2AAA, 0x55), (0x5555, 0x20)]

/-- 1 to 64 pulses whose addresses lie in one 64-byte page (R75 case 4). -/
def DataGroup (g : List Pulse) : Prop :=
  1 ≤ g.length ∧ g.length ≤ 64 ∧ ∀ p ∈ g, ∀ q ∈ g, p.1.toNat / 64 = q.1.toNat / 64

/-- Made from a sequence by deleting elements, reordering elements, or both (R75 case 5). -/
def MadeFrom (g table : List Pulse) : Prop := ∃ l : List Pulse, l.Sublist table ∧ l.Perm g

/-- The byte an address holds after the pairs of a group have been stored in order over `b`: a later pair for the
address wins (R76). -/
def lastStored (g : List Pulse) (a : Nat) (b : Byte) : Byte :=
  g.foldl (fun b p => if p.1.toNat = a then p.2 else b) b

/-! ### Traces -/

/-- `A(a)`: sixteen bits, bit 15 first, three events each, then the latch pulse (R112, R141, R143). -/
def addressTrace (a : Word) : List Event :=
  [15, 14, 13, 12, 11, 10, 9, 8, 7, 6, 5, 4, 3, 2, 1, 0].flatMap
      (fun k => [.ser (a.getLsbD k), .srclk true, .srclk false])
    ++ [.rclk false, .rclk true, .rclk false]

/-- `W(a, v)`: the address, the eight data pins from `D0` to `D7`, the write pulse (R151, R153, R157). -/
def writeTrace (a : Word) (v : Byte) : List Event :=
  addressTrace a
    ++ [.d 0 (v.getLsbD 0), .d 1 (v.getLsbD 1), .d 2 (v.getLsbD 2), .d 3 (v.getLsbD 3),
        .d 4 (v.getLsbD 4), .d 5 (v.getLsbD 5), .d 6 (v.getLsbD 6), .d 7 (v.getLsbD 7)]
    ++ [.weN false, .waitUs 1, .weN true, .waitUs 1]

/-- `R(a) = v`: the address, the eight samples from `D7` to `D0` (R152, R158). -/
def readTrace (a : Word) (v : Byte) : List Event :=
  addressTrace a
    ++ [.rd 7 (v.getLsbD 7), .rd 6 (v.getLsbD 6), .rd 5 (v.getLsbD 5), .rd 4 (v.getLsbD 4),
        .rd 3 (v.getLsbD 3), .rd 2 (v.getLsbD 2), .rd 1 (v.getLsbD 1), .rd 0 (v.getLsbD 0)]

/-- `BW` (R182). -/
def beginTrace : List Event := [.ledProg true, .dir .output, .oeN true]

/-- `EW` (R183). -/
def endTrace : List Event := [.waitPage, .oeN false, .dir .input, .ledProg false]

/-- The paced writes of a bulk write: a page wait follows every byte after which the next address is a multiple of
64 (R176, R177 under `next_address`). -/
def pacedTrace (a : Nat) : List Byte → List Event
  | [] => []
  | v :: rest =>
    writeTrace (BitVec.ofNat 16 a) v ++ (if (a + 1) % 64 = 0 then [.waitPage] else []) ++ pacedTrace (a + 1) rest

/-- The writes of a list of pairs, back to back (R202, R203). -/
def sequenceTrace (table : List (Word × Byte)) : List Event :=
  table.flatMap (fun e => writeTrace e.1 e.2)

end Sys2Proof.Machine
end

