-- ==== Sys2Proof/Certificates/Slice0/Obligations.lean ====
section
/-! DEFINITION. The statements for the provers. Each docstring names the rules it formalises; what rests on a choice of
the model and not on a rule says so. -/

open Sys2Proof Sys2Proof.Machine

/-! ### Encoding -/

/-- R105, R107 to R111: the decoder gives back every well-formed request the encoder writes, whatever follows it. -/
def Obligations.EncodeThenDecodeGivesRequest : Prop :=
  ∀ (i : Instr) (rest : List Byte), WellFormed i → decode (encode i ++ rest) = .ok (i, (encode i).length)

/-- R101, R105, R111: what the decoder accepts begins with exactly the encoding of what it answers, and the packet
length is the one the header fixes. -/
def Obligations.DecodedPacketIsItsEncoding : Prop :=
  ∀ (bytes : List Byte) (i : Instr) (n : Nat), decode bytes = .ok (i, n) →
    WellFormed i ∧ bytes = encode i ++ bytes.drop n ∧ n = (encode i).length ∧ n = packetLength bytes

/-- R104 to R110: one packet of each format, written out from the spec, decodes to the request it stands for. -/
def Obligations.WorkedPacketsDecode : Prop :=
  decode [0x01, 0x12, 0x34] = .ok (.setaddr 0x1234, 3) ∧
  decode [0x02, 0x01, 0x00] = .ok (.rdbyte 0x0100, 3) ∧
  decode [0x03, 0x01, 0x00, 0xAA] = .ok (.wrbyte 0x0100 0xAA, 4) ∧
  decode [0x08, 0x01, 0x00, 0x00, 0x03, 0xAA, 0xBB, 0xCC] = .ok (.bulkwr 0x0100 [0xAA, 0xBB, 0xCC], 8) ∧
  decode [0x09, 0x00, 0x40] = .ok (.erase 0x0040, 3) ∧
  decode [0x0A] = .ok (.sdpen, 1) ∧
  decode [0x0B] = .ok (.sdpdis, 1)

/-- R111: F0, FA, FAD and FL packets have the lengths 1, 3, 4 and 3, an FAL packet `5 + LEN`, a reserved `CMD` 1. -/
def Obligations.FirstByteFixesPacketLength : Prop :=
  ∀ (cmd : Byte) (rest : List Byte),
    packetLength (cmd :: rest) =
      if cmd ∈ [0x01, 0x02, 0x09] then 3
      else if cmd = 0x03 then 4
      else if cmd = 0x08 then 5 + (256 * (rest.getD 2 0).toNat + (rest.getD 3 0).toNat)
      else 1

/-! ### Steps -/

/-- R101, R102: with `BUSY = 0` a step runs the request at `RP`, its packet consumed. -/
def Obligations.StepRunsDecodedRequest : Prop :=
  ∀ (s : State) (i : Instr) (n : Nat), s.busy = false → decode (s.stream.drop s.rp) = .ok (i, n) →
    step s = exec i { s with rp := s.rp + n }

/-- R120, R222: a reserved `CMD` is one of `0x00` and `0x0C` to `0xFF`; its packet is one byte, and nothing happens but
`STATUS <- 0x01` and the record. Every other `CMD` names an operation. -/
def Obligations.ReservedCommandIsRefused : Prop :=
  ∀ (s : State) (cmd : Byte) (rest : List Byte), s.busy = false → s.stream.drop s.rp = cmd :: rest →
    if cmd = 0x00 ∨ 0x0C ≤ cmd.toNat then
      step s = .next { s with
        rp := s.rp + 1, status := 0x01, busy := false, recordsRev := [0x01] :: s.recordsRev }
    else ∃ o : Op, decodeCmd cmd = some o

/-- What a step does when it runs no request: stuck while `BUSY = 1` (R102, U20), idle when the stream has ended (R238),
stuck when it ends inside a packet. The last two are the model's reading: logs 7 and 8. -/
def Obligations.StepWithoutRequest : Prop :=
  ∀ s : State,
    (s.busy = true → step s = .fault .requestWhileBusy) ∧
    (s.busy = false → s.stream.drop s.rp = [] → step s = .next s) ∧
    (s.busy = false → decode (s.stream.drop s.rp) = .error .truncatedPacket → step s = .fault .truncatedPacket)

/-- R24 (a), R101: every step that answers a next state advances `RP` by the length of the packet at `RP`, and nothing
else moves it; the stream itself is never changed. -/
def Obligations.StepAdvancesByOnePacket : Prop :=
  ∀ s t : State, step s = .next t →
    t.rp = s.rp + packetLength (s.stream.drop s.rp) ∧ t.stream = s.stream

/-! ### The address latch -/

/-- R141, R143, R146: one shifted bit and one latch pulse. Shifting leaves `AL` alone, and the pulse copies `SR`. -/
def Obligations.ShiftBitAndLatchPulse : Prop :=
  ∀ (b : Bool) (s : State),
    shiftBit b s =
      emit [.ser b, .srclk true, .srclk false]
        { s with ser := b, srclk := false, sr := (s.sr <<< 1) ||| (if b then 1 else 0) } ∧
    (shiftBit b s).al = s.al ∧
    latchPulse s =
      emit [.rclk false, .rclk true, .rclk false] { s with rclk := false, al := s.sr }

/-- R142: `shift_byte(v)` leaves `{SR[7:0], v}` in the stages and the latch as it was. -/
def Obligations.ShiftByteNetEffect : Prop :=
  ∀ (v : Byte) (s : State),
    (shiftByte v s).sr = s.sr.extractLsb' 0 8 ++ v ∧
    (shiftByte v s).al = s.al ∧
    (shiftByte v s).trace =
      s.trace ++ [7, 6, 5, 4, 3, 2, 1, 0].flatMap (fun k => [.ser (v.getLsbD k), .srclk true, .srclk false])

/-- R144: `set_address(a)` leaves `a` in the stages and the latch, `a[14:0]` on the address lines, and the 51 events of
the address frame, whatever `SR` and `AL` held. -/
def Obligations.AddressSetNetEffect : Prop :=
  ∀ (a : Word) (s : State),
    setAddress a s =
      emit (addressTrace a) { s with ser := a.getLsbD 0, srclk := false, rclk := false, sr := a, al := a } ∧
    (addrLines (setAddress a s).al).toNat = a.toNat % 0x8000 ∧
    (setAddress a s).trace = s.trace ++ addressTrace a ∧
    (addressTrace a).length = 51

/-- R140: `SETADDR` in any bracket state, and its one refusal. -/
def Obligations.SetaddrLatchesAddress : Prop :=
  ∀ (a : Word) (s : State),
    exec (.setaddr a) s =
      if 0x7FFF < a.toNat then
        .next { s with status := 0x02, busy := false, recordsRev := [0x02] :: s.recordsRev }
      else
        .next (emit (addressTrace a) { s with
          op := 0x1, addr := a, status := 0x00, busy := false, recordsRev := [0x00] :: s.recordsRev,
          sr := a, al := a, ser := a.getLsbD 0, srclk := false, rclk := false })

/-! ### Byte access -/

/-- R155: a byte read with the bracket closed returns `MEM[a]`, records `00` and the byte, and changes nothing else. -/
def Obligations.RdbyteReturnsStoredByte : Prop :=
  ∀ (a : Word) (s : State), a.toNat ≤ 0x7FFF → s.Readable →
    exec (.rdbyte a) s =
      .next (emit (readTrace a (readCell s.mem a.toNat)) { s with
        op := 0x2, addr := a, rdata := readCell s.mem a.toNat, status := 0x00, busy := false,
        recordsRev := [0x00, readCell s.mem a.toNat] :: s.recordsRev,
        sr := a, al := a, ser := a.getLsbD 0, srclk := false, rclk := false })

/-- R66, R72: from every state with the pins as inputs, also where the precondition of `MemRead` fails and the levels are
free, a byte read completes and leaves the device and every register but its own as they were. -/
def Obligations.RdbyteFrame : Prop :=
  ∀ (a : Word) (s : State), a.toNat ≤ 0x7FFF → s.dir = .input →
    ∃ t, exec (.rdbyte a) s = .next t ∧
      t = { s with
        op := 0x2, addr := a, rdata := t.rdata, status := 0x00, busy := false,
        recordsRev := [0x00, t.rdata] :: s.recordsRev,
        sr := a, al := a, ser := a.getLsbD 0, srclk := false, rclk := false,
        traceRev := t.traceRev, draws := t.draws } ∧
      t.trace = s.trace ++ readTrace a t.rdata

/-- R154: a byte write in an open bracket appends its pair to `GROUP`; `MEM` and `SDP` do not change yet. -/
def Obligations.WrbyteJoinsGroup : Prop :=
  ∀ (a : Word) (v : Byte) (s : State), a.toNat ≤ 0x7FFF → s.Writable →
    exec (.wrbyte a v) s =
      .next (emit (writeTrace a v) { s with
        op := 0x3, addr := a, wdata := v, status := 0x00, busy := false,
        recordsRev := [0x00] :: s.recordsRev,
        sr := a, al := a, ser := a.getLsbD 0, srclk := false, rclk := false,
        dout := v, weN := true, tmrWe := 0,
        group := s.group ++ [(a.extractLsb' 0 15, v)] })

/-- That `WRBYTE` stops on an open bracket whose pins are outside the precondition of `MemWrite` (output enable active, or
write enable not idle) is the model's choice, log 11: R73 gives the precondition and no effect outside it, and U1 speaks
of a short pulse only. The invariant rules such states out. -/
def Obligations.WrbyteOutsideContractStops : Prop :=
  ∀ (a : Word) (v : Byte) (s : State), a.toNat ≤ 0x7FFF → s.dir = .output → ¬ s.Writable →
    exec (.wrbyte a v) s = .refused .writePulseOutsideContract

/-! ### Brackets -/

/-- R172, R182: `BEGINWR` opens a closed bracket with three events in that order; the device is unchanged. On an open
bracket it is refused. -/
def Obligations.BeginwrOpensBracket : Prop :=
  ∀ s : State,
    exec .beginwr s =
      if s.dir = .input then
        .next (emit [.ledProg true, .dir .output, .oeN true] { s with
          op := 0x6, status := 0x00, busy := false, recordsRev := [0x00] :: s.recordsRev,
          ledProg := true, dir := .output, oeN := true })
      else .next { s with status := 0x04, busy := false, recordsRev := [0x04] :: s.recordsRev }

/-- R174, R175: `BEGINRD` and `ENDRD` set and clear the indicator in any state and do nothing else. -/
def Obligations.ReadBracketMovesIndicatorOnly : Prop :=
  ∀ s : State,
    exec .beginrd s =
      .next (emit [.ledRead true] { s with
        op := 0x4, status := 0x00, busy := false, recordsRev := [0x00] :: s.recordsRev, ledRead := true }) ∧
    exec .endrd s =
      .next (emit [.ledRead false] { s with
        op := 0x5, status := 0x00, busy := false, recordsRev := [0x00] :: s.recordsRev, ledRead := false })

/-- R173, R75 case 1: `ENDWR` on an open bracket in which nothing was written commits an empty group. -/
def Obligations.EndwrClosesEmptyBracket : Prop :=
  ∀ s : State, s.dir = .output → s.group = [] →
    exec .endwr s =
      .next (emit endTrace { s with
        op := 0x7, status := 0x00, busy := false, recordsRev := [0x00] :: s.recordsRev,
        oeN := false, dir := .input, ledProg := false, tmrPage := 0 })

/-- R76, R77, R173: `ENDWR` on a data group stores it in order on an unprotected chip, a later pair for an address
winning, and drops it whole on a protected one. That the array keeps its canonical form is the model's clause (log 4). -/
def Obligations.EndwrCommitsDataGroup : Prop :=
  ∀ s : State, s.dir = .output → DataGroup s.group → s.mem.wf →
    ∃ t, exec .endwr s = .next t ∧
      t = emit endTrace { s with
        op := 0x7, status := 0x00, busy := false, recordsRev := [0x00] :: s.recordsRev,
        oeN := false, dir := .input, ledProg := false, tmrPage := 0, group := [], mem := t.mem } ∧
      t.mem.wf ∧
      ∀ a : Nat, readCell t.mem a =
        if s.sdp then readCell s.mem a else lastStored s.group a (readCell s.mem a)

/-- R78: the enable sequence sets `SDP`, and stores its last bytes only under `SDP_SEQ_STORES` on a chip that was
unprotected. -/
def Obligations.EndwrRecognisesEnableSequence : Prop :=
  ∀ s : State, s.dir = .output → s.group = enableGroup → s.mem.wf →
    ∃ t, exec .endwr s = .next t ∧
      t = emit endTrace { s with
        op := 0x7, status := 0x00, busy := false, recordsRev := [0x00] :: s.recordsRev,
        oeN := false, dir := .input, ledProg := false, tmrPage := 0, group := [], sdp := true, mem := t.mem } ∧
      ∀ a : Nat, readCell t.mem a =
        if s.config.sdpSeqStores = true ∧ s.sdp = false then
          (if a = 0x5555 then 0xA0 else if a = 0x2AAA then 0x55 else readCell s.mem a)
        else readCell s.mem a

/-- R79: the disable sequence clears `SDP`, and stores its last bytes only under `SDP_SEQ_STORES` on a chip that was
unprotected. -/
def Obligations.EndwrRecognisesDisableSequence : Prop :=
  ∀ s : State, s.dir = .output → s.group = disableGroup → s.mem.wf →
    ∃ t, exec .endwr s = .next t ∧
      t = emit endTrace { s with
        op := 0x7, status := 0x00, busy := false, recordsRev := [0x00] :: s.recordsRev,
        oeN := false, dir := .input, ledProg := false, tmrPage := 0, group := [], sdp := false, mem := t.mem } ∧
      ∀ a : Nat, readCell t.mem a =
        if s.config.sdpSeqStores = true ∧ s.sdp = false then
          (if a = 0x5555 then 0x20 else if a = 0x2AAA then 0x55 else readCell s.mem a)
        else readCell s.mem a

/-- R80: a reordered or shortened sequence that is no data group leaves `SDP` unchanged and every byte at an address that
does not occur in it. What it leaves at the addresses that do is free, so nothing is said of it. That the array keeps
its canonical form is the model's clause (log 4). -/
def Obligations.DefectiveSequenceKeepsProtection : Prop :=
  ∀ s : State, s.dir = .output → s.mem.wf → s.group ≠ [] → s.group ≠ enableGroup → s.group ≠ disableGroup →
    ¬ DataGroup s.group → MadeFrom s.group enableGroup ∨ MadeFrom s.group disableGroup →
    ∃ t, exec .endwr s = .next t ∧
      t = emit endTrace { s with
        op := 0x7, status := 0x00, busy := false, recordsRev := [0x00] :: s.recordsRev,
        oeN := false, dir := .input, ledProg := false, tmrPage := 0, group := [],
        mem := t.mem, draws := t.draws } ∧
      t.mem.wf ∧
      ∀ a : Nat, (∀ p ∈ s.group, p.1.toNat ≠ a) → readCell t.mem a = readCell s.mem a

/-- R81: any other group is refused: more than 64 pulses or more than one page, and neither a sequence nor made from
one. -/
def Obligations.UnrecognisedGroupIsRefused : Prop :=
  ∀ s : State, s.dir = .output → s.group ≠ [] → ¬ DataGroup s.group →
    ¬ MadeFrom s.group enableGroup → ¬ MadeFrom s.group disableGroup →
    exec .endwr s = .refused .unrecognisedGroup

/-! ### Bulk write and erase -/

/-- R177: the three readings of the pacing predicate. Under `next_address` a wait follows exactly the bytes whose address
ends in `0x3F`. -/
def Obligations.PacingPredicateReadings : Prop :=
  ∀ (c : Word) (n : Nat),
    (pace .nextAddress c n = true ↔ c.toNat % 64 = 0) ∧
    (pace .byteCount c n = true ↔ n % 64 = 0) ∧
    (pace .writtenAddress c n = true ↔ (c - 1).toNat % 64 = 0)

/-- R177: `next_address` and `byte_count` agree whenever the start address is a multiple of 64, which is always so for the
erase: the two give the same run, stops included, and differ in nothing but the parameter itself. -/
def Obligations.PacingReadingsAgreeWhenAligned : Prop :=
  ∀ s : State,
    (∀ (a : Word) (p : List Byte), a.toNat % 64 = 0 →
      viewOutcome (fun t => { t with config := s.config })
          (exec (.bulkwr a p) { s with config := { s.config with paceRule := .byteCount } }) =
        viewOutcome (fun t => { t with config := s.config })
          (exec (.bulkwr a p) { s with config := { s.config with paceRule := .nextAddress } })) ∧
    ∀ n : Word,
      viewOutcome (fun t => { t with config := s.config })
          (exec (.erase n) { s with config := { s.config with paceRule := .byteCount } }) =
        viewOutcome (fun t => { t with config := s.config })
          (exec (.erase n) { s with config := { s.config with paceRule := .nextAddress } })

/-- R176, R76, R77: under `PACE_RULE = next_address` a bulk write of `n` bytes inside the array completes. On an
unprotected chip `MEM[a + j] = P[j]` for every `j < n` and every other byte is unchanged; on a protected chip `MEM` is
unchanged; `SDP` is unchanged in both. The rest of the statement is its frame: `CUR` and `REM` are free (R25). That the
array keeps its canonical form is the model's clause (log 4). -/
def Obligations.BulkwrStoresPayload : Prop :=
  ∀ (a : Word) (p : List Byte) (s : State),
    a.toNat ≤ 0x7FFF → a.toNat + p.length ≤ 0x8000 → s.Closed → s.mem.wf → s.config.paceRule = .nextAddress →
    ∃ t, exec (.bulkwr a p) s = .next t ∧
      (s.sdp = true → t.mem = s.mem) ∧
      (s.sdp = false → t.mem.wf ∧
        (∀ (j : Nat) (h : j < p.length), readCell t.mem (a.toNat + j) = p[j]) ∧
        ∀ b : Nat, b < a.toNat ∨ a.toNat + p.length ≤ b → readCell t.mem b = readCell s.mem b) ∧
      (p ≠ [] → t.al.toNat = a.toNat + p.length - 1 ∧ some t.dout = p.getLast?) ∧
      t = { s with
        op := 0x8, addr := a, len := BitVec.ofNat 16 p.length, status := 0x00, busy := false,
        recordsRev := [0x00] :: s.recordsRev, cur := t.cur, rem := t.rem, draws := t.draws,
        sr := if p = [] then s.sr else t.al, al := if p = [] then s.al else t.al,
        ser := if p = [] then s.ser else t.al.getLsbD 0,
        srclk := if p = [] then s.srclk else false, rclk := if p = [] then s.rclk else false,
        dout := if p = [] then s.dout else t.dout, tmrWe := if p = [] then s.tmrWe else 0,
        tmrPage := 0, oeN := false, ledProg := false, mem := t.mem, traceRev := t.traceRev }

/-- R176, R177, R181: the trace of a bulk write: the bracket, each byte write, a page wait after every byte whose next
address is a multiple of 64, and the closing wait: `floor((a+n)/64) - floor(a/64) + 1` page waits among
`63 n + W + 7` events. -/
def Obligations.BulkwrTraceIsPaced : Prop :=
  ∀ (a : Word) (p : List Byte) (s t : State),
    a.toNat ≤ 0x7FFF → a.toNat + p.length ≤ 0x8000 → s.dir = .input → s.config.paceRule = .nextAddress →
    exec (.bulkwr a p) s = .next t →
    t.trace = s.trace ++ beginTrace ++ pacedTrace a.toNat p ++ endTrace ∧
    (beginTrace ++ pacedTrace a.toNat p ++ endTrace).count .waitPage =
      (a.toNat + p.length) / 64 - a.toNat / 64 + 1 ∧
    (beginTrace ++ pacedTrace a.toNat p ++ endTrace).length =
      3 + 63 * p.length + ((a.toNat + p.length) / 64 - a.toNat / 64) + 4

/-- R178: an erase is a bulk write of `n` bytes `0xFF` at address 0, refusals and stops included, under every reading of
the pacing rule: only `OP` and `ADDR` tell the two apart. -/
def Obligations.EraseIsBulkFill : Prop :=
  ∀ (n : Word) (s : State),
    viewOutcome (fun t => { t with op := 0, addr := 0 }) (exec (.erase n) s) =
      viewOutcome (fun t => { t with op := 0, addr := 0 }) (exec (.bulkwr 0 (List.replicate n.toNat 0xFF)) s)

/-- R178: the effect of an erase on the device, under `PACE_RULE = next_address`: `MEM[j] = 0xFF` for every `j < n` on an
unprotected chip, nothing on a protected one. `ADDR`, `WDATA`, `RDATA` and the reading indicator are not changed. -/
def Obligations.EraseFillsRange : Prop :=
  ∀ (n : Word) (s : State),
    n.toNat ≤ 0x8000 → s.Closed → s.mem.wf → s.config.paceRule = .nextAddress →
    ∃ t, exec (.erase n) s = .next t ∧
      (s.sdp = true → t.mem = s.mem) ∧
      (s.sdp = false → ∀ b : Nat, readCell t.mem b = if b < n.toNat then 0xFF else readCell s.mem b) ∧
      t.trace = s.trace ++ beginTrace ++ pacedTrace 0 (List.replicate n.toNat 0xFF) ++ endTrace ∧
      t = { s with
        op := 0x9, len := n, status := 0x00, busy := false,
        recordsRev := [0x00] :: s.recordsRev, cur := t.cur, rem := t.rem, draws := t.draws,
        sr := t.sr, al := t.al, ser := t.ser, srclk := t.srclk, rclk := t.rclk, dout := t.dout,
        tmrWe := t.tmrWe, tmrPage := 0, oeN := false, ledProg := false, mem := t.mem, traceRev := t.traceRev }

/-- R179: a bulk write or an erase of no bytes opens the bracket, waits once and closes it; no address is shifted and the
device is unchanged. -/
def Obligations.ZeroLengthTouchesNothing : Prop :=
  ∀ (a : Word) (s : State), a.toNat ≤ 0x7FFF → s.dir = .input → s.group = [] →
    (∃ t, exec (.bulkwr a []) s = .next t ∧
      t = emit (beginTrace ++ endTrace) { s with
        op := 0x8, addr := a, len := 0, status := 0x00, busy := false, recordsRev := [0x00] :: s.recordsRev,
        cur := t.cur, rem := t.rem, draws := t.draws, tmrPage := 0, oeN := false, ledProg := false }) ∧
    (∃ t, exec (.erase 0) s = .next t ∧
      t = emit (beginTrace ++ endTrace) { s with
        op := 0x9, len := 0, status := 0x00, busy := false, recordsRev := [0x00] :: s.recordsRev,
        cur := t.cur, rem := t.rem, draws := t.draws, tmrPage := 0, oeN := false, ledProg := false })

/-! ### The SDP sequencer -/

/-- R203, R78: `SDPEN` issues exactly `EN` in its own bracket and leaves the chip protected, whatever it was. `IDX` is
free afterwards (R25). -/
def Obligations.SdpenLocksChip : Prop :=
  ∀ s : State, s.Closed → s.mem.wf →
    ∃ t, exec .sdpen s = .next t ∧
      t = emit (beginTrace ++ sequenceTrace [(0x5555, 0xAA), (0x2AAA, 0x55), (0x5555, 0xA0)] ++ endTrace) { s with
        op := 0xA, status := 0x00, busy := false, recordsRev := [0x00] :: s.recordsRev,
        idx := t.idx, draws := t.draws, sr := 0x5555, al := 0x5555, ser := true, srclk := false, rclk := false,
        dout := 0xA0, tmrWe := 0, tmrPage := 0, oeN := false, ledProg := false, sdp := true, mem := t.mem } ∧
      ∀ a : Nat, readCell t.mem a =
        if s.config.sdpSeqStores = true ∧ s.sdp = false then
          (if a = 0x5555 then 0xA0 else if a = 0x2AAA then 0x55 else readCell s.mem a)
        else readCell s.mem a

/-- R202, R79: `SDPDIS` issues exactly `DIS` in its own bracket and leaves the chip unprotected, whatever it was. `IDX`
is free afterwards (R25). -/
def Obligations.SdpdisUnlocksChip : Prop :=
  ∀ s : State, s.Closed → s.mem.wf →
    ∃ t, exec .sdpdis s = .next t ∧
      t = emit (beginTrace ++ sequenceTrace [(0x5555, 0xAA), (0x2AAA, 0x55), (0x5555, 0x80), (0x5555, 0xAA),
          (0x2AAA, 0x55), (0x5555, 0x20)] ++ endTrace) { s with
        op := 0xB, status := 0x00, busy := false, recordsRev := [0x00] :: s.recordsRev,
        idx := t.idx, draws := t.draws, sr := 0x5555, al := 0x5555, ser := true, srclk := false, rclk := false,
        dout := 0x20, tmrWe := 0, tmrPage := 0, oeN := false, ledProg := false, sdp := false, mem := t.mem } ∧
      ∀ a : Nat, readCell t.mem a =
        if s.config.sdpSeqStores = true ∧ s.sdp = false then
          (if a = 0x5555 then 0x20 else if a = 0x2AAA then 0x55 else readCell s.mem a)
        else readCell s.mem a

/-- R205: an enable or disable sequence built from raw byte writes in a bracket has the trace and the device effect of
the sequencer's. -/
def Obligations.RawSequenceEqualsSequencer : Prop :=
  ∀ s : State, s.Closed → s.mem.wf →
    (∃ t u, execAll [.beginwr, .wrbyte 0x5555 0xAA, .wrbyte 0x2AAA 0x55, .wrbyte 0x5555 0xA0, .endwr] s = .next t ∧
      exec .sdpen s = .next u ∧
      t.trace = u.trace ∧ t.mem = u.mem ∧ t.sdp = u.sdp ∧ t.group = u.group) ∧
    (∃ t u, execAll [.beginwr, .wrbyte 0x5555 0xAA, .wrbyte 0x2AAA 0x55, .wrbyte 0x5555 0x80, .wrbyte 0x5555 0xAA,
        .wrbyte 0x2AAA 0x55, .wrbyte 0x5555 0x20, .endwr] s = .next t ∧
      exec .sdpdis s = .next u ∧
      t.trace = u.trace ∧ t.mem = u.mem ∧ t.sdp = u.sdp ∧ t.group = u.group)

/-- R204: the outcome of every operation, seen without the chip's contents, does not depend on `SDP` or `MEM`; only the
levels and the byte a read samples do. -/
def Obligations.ControllerNeverSeesChip : Prop :=
  ∀ (i : Instr) (s : State) (m : Memory) (p : Bool),
    viewOutcome State.forgetReads (exec i { s with mem := m, sdp := p }) =
      viewOutcome State.forgetReads (exec i s) ∧
    ((∀ a, i ≠ .rdbyte a) →
      viewOutcome State.forgetDevice (exec i { s with mem := m, sdp := p }) =
        viewOutcome State.forgetDevice (exec i s))

/-- R38, R205: between requests in which R41 holds, `SDP` changes only by `SDPEN`, `SDPDIS`, or an `ENDWR` whose group is
exactly a sequence. -/
def Obligations.ProtectionChangesOnlyBySequence : Prop :=
  ∀ (i : Instr) (s t : State), s.Inv → exec i s = .next t → t.sdp ≠ s.sdp →
    (t.sdp = true ∧ (i = .sdpen ∨ i = .endwr ∧ s.group = enableGroup)) ∨
    (t.sdp = false ∧ (i = .sdpdis ∨ i = .endwr ∧ s.group = disableGroup))

/-! ### Refusals, completion, and who writes what -/

/-- R223 to R227, R229: a request to which a refusal cause applies is refused with the first one that does (R227), and has
no effect but `STATUS`, the record and `BUSY = 0` (R226, R229). That the operand registers `OP`, `ADDR`, `LEN` and
`WDATA` are among what keeps its value is the model's reading of R226 and R229 (log 10). -/
def Obligations.RefusalLeavesNoMark : Prop :=
  ∀ (i : Instr) (s : State) (c : Byte), refusalStatus i s.dir = some c →
    exec i s = .next { s with status := c, busy := false, recordsRev := [c] :: s.recordsRev }

/-- R103: a request that ends at all ends with its `STATUS` in the record, 0 unless a refusal cause applies, followed by
`RDATA` if and only if it was an `RDBYTE` with `STATUS = 0`; `BUSY` is 0. -/
def Obligations.CompletionRecordOfRequest : Prop :=
  ∀ (i : Instr) (s t : State), exec i s = .next t →
    t.busy = false ∧ t.status = (refusalStatus i s.dir).getD 0x00 ∧
    t.records = s.records ++ [if i.op = .rdbyte ∧ t.status = 0x00 then [t.status, t.rdata] else [t.status]]

/-- R21, R22: an executed request loads `OP` and the operand registers it has operands for and leaves the others, and only
`RDBYTE` writes `RDATA`. -/
def Obligations.OperandRegistersLoaded : Prop :=
  ∀ (i : Instr) (s t : State), exec i s = .next t → refusalStatus i s.dir = none →
    t.op = i.op.code ∧
    t.addr = (match i with
      | .setaddr a | .rdbyte a | .wrbyte a _ | .bulkwr a _ => a
      | _ => s.addr) ∧
    t.len = (match i with
      | .bulkwr _ p => BitVec.ofNat 16 p.length
      | .erase n => n
      | _ => s.len) ∧
    t.wdata = (match i with
      | .wrbyte _ v => v
      | _ => s.wdata) ∧
    (i.op ≠ .rdbyte → t.rdata = s.rdata)

/-- R156, R34: completed requests move `DIR` only by `BEGINWR` and `ENDWR`, and `LED_READ` only by `BEGINRD` and `ENDRD`;
the address set, the byte operations and the read bracket leave `OE_N` and `LED_PROG` as they are. That the open
parameters of R9 never change is the model's clause: it holds them in a field that no step writes (log 2). -/
def Obligations.ControlBitsWrittenByBracketsOnly : Prop :=
  ∀ (i : Instr) (s t : State), exec i s = .next t →
    t.config = s.config ∧
    (i ≠ .beginwr → i ≠ .endwr → t.dir = s.dir) ∧
    (i ≠ .beginrd → i ≠ .endrd → t.ledRead = s.ledRead) ∧
    (i ∈ [.beginrd, .endrd] ∨ i.op ∈ [.setaddr, .rdbyte, .wrbyte] → t.oeN = s.oeN ∧ t.ledProg = s.ledProg)

/-- R66, R86, R154: the operations without a page wait leave `MEM` and `SDP` as they are, from every state, and only
`WRBYTE` among them touches `GROUP`. -/
def Obligations.NoCommitWithoutPageWait : Prop :=
  ∀ (i : Instr) (s t : State), exec i s = .next t →
    i.op ∈ [.setaddr, .rdbyte, .wrbyte, .beginrd, .endrd, .beginwr] →
    t.mem = s.mem ∧ t.sdp = s.sdp ∧ (i.op ≠ .wrbyte → t.group = s.group)

/-- R67, R68: no completed request brings an address at or above `0x8000` to the latch. -/
def Obligations.LatchBitFifteenStaysClear : Prop :=
  ∀ (i : Instr) (s t : State), exec i s = .next t →
    t.al = s.al ∨ (t.al.toNat < 0x8000 ∧ t.sr = t.al)

/-- R277, R278, U7, R30: what the data pins carry. In an open bracket they carry `DOUT`, in a closed one the chip's byte
at the latched address; while both sides drive them they have no value. -/
def Obligations.DataPinsHaveNoValueInContention : Prop :=
  ∀ s : State,
    (s.Writable → dataBus s = some s.dout) ∧
    (s.Readable → dataBus s = some (readCell s.mem (s.al.toNat % 0x8000))) ∧
    (s.Readable → dataBus (setDir .output (setLedProg true s)) = none) ∧
    (s.Writable → dataBus (setOe false s) = none)

/-! ### Reset, invariant, safety -/

/-- R42: the reset values that the table fixes. -/
def Obligations.ResetValuesOfTable : Prop :=
  State.reset.status = 0x00 ∧ State.reset.busy = false ∧ State.reset.rp = 0 ∧ State.reset.srclk = false ∧
  State.reset.rclk = false ∧ State.reset.dir = .input ∧ State.reset.weN = true ∧ State.reset.oeN = false ∧
  State.reset.ledProg = false ∧ State.reset.ledRead = false ∧ State.reset.tmrWe = 0 ∧ State.reset.tmrPage = 0 ∧
  State.reset.group = []

/-- R260, R71: a reset between requests puts the controller at the values the table of R42 fixes, whatever it held, makes
no event, and does not touch `MEM` or `SDP`. R261: while `BUSY = 1` it has no step. The new stream is the model's
(log 12). -/
def Obligations.HostResetKeepsDevice : Prop :=
  ∀ (stream : List Byte) (s : State),
    (s.busy = true → hostReset stream s = .fault .resetWhileBusy) ∧
    (s.busy = false → ∃ t, hostReset stream s = .next t ∧
      t.status = 0x00 ∧ t.busy = false ∧ t.rp = 0 ∧ t.srclk = false ∧ t.rclk = false ∧ t.dir = .input ∧
      t.weN = true ∧ t.oeN = false ∧ t.ledProg = false ∧ t.ledRead = false ∧ t.tmrWe = 0 ∧ t.tmrPage = 0 ∧
      t.group = [] ∧ t.mem = s.mem ∧ t.sdp = s.sdp ∧ t.trace = s.trace ∧ t.config = s.config)

/-- The invariant of R41 holds after reset. The canonical form of the empty list is the model's (log 4). -/
def Obligations.ResetMeetsInvariant : Prop := State.reset.Inv

/-- R41: every step from a state of the invariant that answers a next state answers one of the invariant. -/
def Obligations.StepKeepsInvariant : Prop :=
  ∀ s t : State, s.Inv → step s = .next t → t.Inv

/-- R41, R180, R81: under `PACE_RULE = next_address` a step from a state of the invariant is safe, unless the stream ends
inside a packet (log 7) or the request is an `ENDWR` whose group has no meaning. -/
def Obligations.StepsStopOnlyByIllFormedGroups : Prop :=
  ∀ s : State, s.Inv → s.config.paceRule = .nextAddress →
    SafeStep s ∨
    (step s = .fault .truncatedPacket ∧ decode (s.stream.drop s.rp) = .error .truncatedPacket) ∨
    (step s = .refused .unrecognisedGroup ∧ decode (s.stream.drop s.rp) = .ok (.endwr, 1) ∧ s.dir = .output ∧
      s.group ≠ [] ∧ ¬ DataGroup s.group ∧ ¬ MadeFrom s.group enableGroup ∧ ¬ MadeFrom s.group disableGroup)

/-- R86, R72, R76 and the round trip S3: after a bulk write on an unprotected chip every byte of the payload reads
back. -/
def Obligations.BulkwrThenRdbyteReadsBack : Prop :=
  ∀ (a : Word) (p : List Byte) (s : State),
    a.toNat ≤ 0x7FFF → a.toNat + p.length ≤ 0x8000 → s.Closed → s.mem.wf → s.sdp = false →
    s.config.paceRule = .nextAddress →
    ∃ t, exec (.bulkwr a p) s = .next t ∧
      ∀ (j : Nat) (h : j < p.length),
        ∃ u, exec (.rdbyte (a + BitVec.ofNat 16 j)) t = .next u ∧ u.rdata = p[j] ∧ u.status = 0x00

/-- R131: no request that a console verb expands to is refused for its operands, nor for the bracket state while the
bracket is closed, and the caller's address stays in `[0, 0x8000]`. The expansions are the model's reading (log 15). -/
def Obligations.VerbRequestsAreNeverRefused : Prop :=
  ∀ (c : Caller) (v : Verb) (is : List Instr) (ca : Nat), c.ca ≤ 0x8000 →
    expandVerb c v = some (is, ca) →
    ca ≤ 0x8000 ∧ ∀ i ∈ is, WellFormed i ∧ refusalStatus i .input = none
end

