-- ==== Sys2Proof/Laws/Memory.lean ====
section
/-! SUPPORT. The laws of the array: read after write, the canonical form, and that canonical memories which read
alike are equal. -/

namespace Sys2Proof.Machine

@[simp] theorem readCell_nil (a : Nat) : readCell [] a = blankByte := rfl

theorem readCell_cons (k : Nat) (v : Byte) (m : Memory) (a : Nat) :
    readCell ((k, v) :: m) a = if k = a then v else readCell m a := rfl

/-- An address below every listed one reads as unlisted. -/
theorem readCell_of_forall_lt {m : Memory} {a : Nat} (h : ∀ c ∈ m, a < c.1) : readCell m a = blankByte := by
  induction m with
  | nil => rfl
  | cons c m ih =>
    obtain ⟨k, v⟩ := c
    have hk : a < k := h (k, v) (by simp)
    rw [readCell_cons, if_neg (by omega)]
    exact ih fun c hc => h c (by simp [hc])

theorem readCell_consCell {m : Memory} {a : Nat} (h : ∀ c ∈ m, a < c.1) (v : Byte) (b : Nat) :
    readCell (consCell a v m) b = if a = b then v else readCell m b := by
  unfold consCell
  split
  · next hv =>
    split
    · next hab => subst hab; rw [readCell_of_forall_lt h, hv]
    · rfl
  · rfl

theorem wf_tail {c : Host.Cell} {m : Memory} (h : Memory.wf (c :: m)) : Memory.wf m :=
  ⟨h.1.tail, fun d hd => h.2 d (by simp [hd])⟩

theorem wf_head_lt {c : Host.Cell} {m : Memory} (h : Memory.wf (c :: m)) : ∀ d ∈ m, c.1 < d.1 :=
  (List.pairwise_cons.mp h.1).1

/-- Read after write. -/
theorem readCell_writeCell {m : Memory} (h : m.wf) (a : Nat) (v : Byte) (b : Nat) :
    readCell (writeCell m a v) b = if a = b then v else readCell m b := by
  induction m with
  | nil => exact readCell_consCell (by simp) v b
  | cons c m ih =>
    obtain ⟨k, w⟩ := c
    have hlt := wf_head_lt h
    unfold writeCell
    split
    · next hak =>
      refine readCell_consCell ?_ v b
      intro d hd
      rcases List.mem_cons.mp hd with rfl | hd
      · exact hak
      · exact hak.trans (hlt d hd)
    · split
      · next hak =>
        subst hak
        rw [readCell_consCell hlt, readCell_cons]
        split <;> rfl
      · next hne =>
        rw [readCell_cons, ih (wf_tail h), readCell_cons]
        split
        · next hkb => rw [if_neg (by omega)]
        · rfl

theorem mem_consCell {a : Nat} {v : Byte} {m : Memory} {c : Host.Cell} (h : c ∈ consCell a v m) :
    c = (a, v) ∧ v ≠ blankByte ∨ c ∈ m := by
  unfold consCell at h
  split at h
  · exact .inr h
  · next hv => rcases List.mem_cons.mp h with rfl | h
               · exact .inl ⟨rfl, hv⟩
               · exact .inr h

theorem mem_writeCell {m : Memory} {a : Nat} {v : Byte} {c : Host.Cell} (h : c ∈ writeCell m a v) :
    c = (a, v) ∧ v ≠ blankByte ∨ c ∈ m := by
  induction m with
  | nil => exact mem_consCell h
  | cons d m ih =>
    obtain ⟨k, w⟩ := d
    unfold writeCell at h
    split at h
    · exact mem_consCell h
    · split at h
      · rcases mem_consCell h with h | h
        · exact .inl h
        · exact .inr (List.mem_cons_of_mem _ h)
      · rcases List.mem_cons.mp h with rfl | h
        · exact .inr (by simp)
        · rcases ih h with h | h
          · exact .inl h
          · exact .inr (List.mem_cons_of_mem _ h)

theorem wf_consCell {m : Memory} (h : m.wf) {a : Nat} (ha : a < Config.maxRomSize) (hlt : ∀ c ∈ m, a < c.1)
    (v : Byte) : (consCell a v m).wf := by
  unfold consCell
  split
  · exact h
  · next hv =>
    refine ⟨List.pairwise_cons.mpr ⟨hlt, h.1⟩, fun c hc => ?_⟩
    rcases List.mem_cons.mp hc with rfl | hc
    · exact ⟨ha, hv⟩
    · exact h.2 c hc

/-- A write keeps the canonical form. -/
theorem wf_writeCell {m : Memory} (h : m.wf) {a : Nat} (ha : a < Config.maxRomSize) (v : Byte) :
    (writeCell m a v).wf := by
  induction m with
  | nil => exact wf_consCell h ha (by simp) v
  | cons c m ih =>
    obtain ⟨k, w⟩ := c
    have hlt := wf_head_lt h
    unfold writeCell
    split
    · next hak =>
      refine wf_consCell h ha ?_ v
      intro d hd
      rcases List.mem_cons.mp hd with rfl | hd
      · exact hak
      · exact hak.trans (hlt d hd)
    · split
      · next hak => subst hak; exact wf_consCell (wf_tail h) ha hlt v
      · next hlt' hne =>
        have hw := ih (wf_tail h)
        refine ⟨List.pairwise_cons.mpr ⟨fun d hd => ?_, hw.1⟩, fun d hd => ?_⟩
        · rcases mem_writeCell hd with ⟨rfl, -⟩ | hd
          · show k < a
            omega
          · exact hlt d hd
        · rcases List.mem_cons.mp hd with rfl | hd
          · exact h.2 _ (by simp)
          · exact hw.2 d hd

theorem wf_nil : Memory.wf [] := ⟨.nil, by simp⟩

/-- Two canonical memories that read alike are the same list. -/
theorem memory_ext {m n : Memory} (hm : m.wf) (hn : n.wf) (h : ∀ a, readCell m a = readCell n a) : m = n := by
  induction m generalizing n with
  | nil =>
    cases n with
    | nil => rfl
    | cons c n =>
      have := h c.1
      rw [readCell_nil, show c = (c.1, c.2) from rfl, readCell_cons, if_pos rfl] at this
      exact absurd this.symm (hn.2 c (by simp)).2
  | cons c m ih =>
    obtain ⟨k, v⟩ := c
    have hv := (hm.2 (k, v) (by simp)).2
    cases n with
    | nil =>
      have := h k
      rw [readCell_cons, if_pos rfl] at this
      exact absurd this hv
    | cons d n =>
      obtain ⟨l, w⟩ := d
      have hw := (hn.2 (l, w) (by simp)).2
      have hml := wf_head_lt hm
      have hnl := wf_head_lt hn
      have hkl : k = l := by
        rcases lt_trichotomy k l with hlt | heq | hlt
        · have := h k
          rw [readCell_cons, if_pos rfl, readCell_of_forall_lt] at this
          · exact absurd this hv
          · intro c hc
            rcases List.mem_cons.mp hc with rfl | hc
            · exact hlt
            · exact hlt.trans (hnl c hc)
        · exact heq
        · have := h l
          rw [readCell_cons (k := l), if_pos rfl, readCell_of_forall_lt] at this
          · exact absurd this.symm hw
          · intro c hc
            rcases List.mem_cons.mp hc with rfl | hc
            · exact hlt
            · exact hlt.trans (hml c hc)
      subst hkl
      have hvw : v = w := by simpa [readCell_cons] using h k
      subst hvw
      congr 1
      refine ih (wf_tail hm) (wf_tail hn) fun a => ?_
      by_cases hka : k = a
      · subst hka
        rw [readCell_of_forall_lt hml, readCell_of_forall_lt hnl]
      · simpa [readCell_cons, hka] using h a

theorem addr_lt (a : Addr) : a.toNat < Config.maxRomSize := a.isLt

/-- A stored group keeps the canonical form. -/
theorem wf_storeGroup (g : List Pulse) {m : Memory} (h : m.wf) : (storeGroup g m).wf := by
  induction g generalizing m with
  | nil => exact h
  | cons p g ih => exact ih (wf_writeCell h (addr_lt p.1) p.2)

/-- What a stored group leaves at an address: its last pair for that address, or the old byte. -/
theorem readCell_storeGroup (g : List Pulse) {m : Memory} (h : m.wf) (a : Nat) :
    readCell (storeGroup g m) a = g.foldl (fun b p => if p.1.toNat = a then p.2 else b) (readCell m a) := by
  induction g generalizing m with
  | nil => rfl
  | cons p g ih =>
    show readCell (storeGroup g (writeCell m p.1.toNat p.2)) a = _
    rw [ih (wf_writeCell h (addr_lt p.1) p.2), readCell_writeCell h]
    rfl

theorem wf_storeSequence (last : Byte) {s : State} (h : s.mem.wf) : (storeSequence last s).wf := by
  unfold storeSequence
  split
  · exact wf_writeCell (wf_writeCell h (by decide) _) (by decide) _
  · exact h

theorem wf_storeAnyGroup (g : List Pulse) {s : State} (h : s.mem.wf) : (storeAnyGroup g s).mem.wf := by
  induction g generalizing s with
  | nil => exact h
  | cons p g ih => exact ih (s := storeAny p.1 s) (wf_writeCell h (addr_lt p.1) _)

/-- A defective command changes nothing but `MEM` and the draw counter. -/
theorem storeAnyGroup_eq (g : List Pulse) (s : State) :
    storeAnyGroup g s = { s with mem := (storeAnyGroup g s).mem, draws := s.draws + g.length } := by
  induction g generalizing s with
  | nil => rfl
  | cons p g ih =>
    have h := ih (storeAny p.1 s)
    show storeAnyGroup g (storeAny p.1 s) = { s with mem := (storeAnyGroup g (storeAny p.1 s)).mem, draws := _ }
    rw [h]
    simp [storeAny, Nat.add_assoc, Nat.add_comm 1]

/-- A defective command reaches only the addresses that occur in it. -/
theorem readCell_storeAnyGroup (g : List Pulse) {s : State} (h : s.mem.wf) {a : Nat}
    (ha : ∀ p ∈ g, p.1.toNat ≠ a) : readCell (storeAnyGroup g s).mem a = readCell s.mem a := by
  induction g generalizing s with
  | nil => rfl
  | cons p g ih =>
    have hp : p.1.toNat ≠ a := ha p (by simp)
    show readCell (storeAnyGroup g (storeAny p.1 s)).mem a = _
    rw [ih (s := storeAny p.1 s) (wf_writeCell h (addr_lt p.1) _) fun q hq => ha q (by simp [hq])]
    show readCell (writeCell s.mem p.1.toNat _) a = _
    rw [readCell_writeCell h, if_neg hp]

end Sys2Proof.Machine
end

