-- ==== Sys2Proof/Laws/State.lean ====
section
/-! SUPPORT. What each plain update of State leaves in each field: one lemma a field and update, true by rfl, so that no
later proof unfolds a record update. -/

namespace Sys2Proof.Machine

/-! ### emit -/

@[simp] theorem emit_op (es : List Event) (s : State) : (emit es s).op = s.op := rfl
@[simp] theorem emit_addr (es : List Event) (s : State) : (emit es s).addr = s.addr := rfl
@[simp] theorem emit_len (es : List Event) (s : State) : (emit es s).len = s.len := rfl
@[simp] theorem emit_wdata (es : List Event) (s : State) : (emit es s).wdata = s.wdata := rfl
@[simp] theorem emit_rdata (es : List Event) (s : State) : (emit es s).rdata = s.rdata := rfl
@[simp] theorem emit_status (es : List Event) (s : State) : (emit es s).status = s.status := rfl
@[simp] theorem emit_busy (es : List Event) (s : State) : (emit es s).busy = s.busy := rfl
@[simp] theorem emit_cur (es : List Event) (s : State) : (emit es s).cur = s.cur := rfl
@[simp] theorem emit_rem (es : List Event) (s : State) : (emit es s).rem = s.rem := rfl
@[simp] theorem emit_idx (es : List Event) (s : State) : (emit es s).idx = s.idx := rfl
@[simp] theorem emit_sr (es : List Event) (s : State) : (emit es s).sr = s.sr := rfl
@[simp] theorem emit_al (es : List Event) (s : State) : (emit es s).al = s.al := rfl
@[simp] theorem emit_ser (es : List Event) (s : State) : (emit es s).ser = s.ser := rfl
@[simp] theorem emit_srclk (es : List Event) (s : State) : (emit es s).srclk = s.srclk := rfl
@[simp] theorem emit_rclk (es : List Event) (s : State) : (emit es s).rclk = s.rclk := rfl
@[simp] theorem emit_dir (es : List Event) (s : State) : (emit es s).dir = s.dir := rfl
@[simp] theorem emit_dout (es : List Event) (s : State) : (emit es s).dout = s.dout := rfl
@[simp] theorem emit_weN (es : List Event) (s : State) : (emit es s).weN = s.weN := rfl
@[simp] theorem emit_oeN (es : List Event) (s : State) : (emit es s).oeN = s.oeN := rfl
@[simp] theorem emit_ledProg (es : List Event) (s : State) : (emit es s).ledProg = s.ledProg := rfl
@[simp] theorem emit_ledRead (es : List Event) (s : State) : (emit es s).ledRead = s.ledRead := rfl
@[simp] theorem emit_tmrWe (es : List Event) (s : State) : (emit es s).tmrWe = s.tmrWe := rfl
@[simp] theorem emit_tmrPage (es : List Event) (s : State) : (emit es s).tmrPage = s.tmrPage := rfl
@[simp] theorem emit_mem (es : List Event) (s : State) : (emit es s).mem = s.mem := rfl
@[simp] theorem emit_sdp (es : List Event) (s : State) : (emit es s).sdp = s.sdp := rfl
@[simp] theorem emit_group (es : List Event) (s : State) : (emit es s).group = s.group := rfl
@[simp] theorem emit_stream (es : List Event) (s : State) : (emit es s).stream = s.stream := rfl
@[simp] theorem emit_rp (es : List Event) (s : State) : (emit es s).rp = s.rp := rfl
@[simp] theorem emit_traceRev (es : List Event) (s : State) : (emit es s).traceRev = es.reverseAux s.traceRev := rfl
@[simp] theorem emit_recordsRev (es : List Event) (s : State) : (emit es s).recordsRev = s.recordsRev := rfl
@[simp] theorem emit_config (es : List Event) (s : State) : (emit es s).config = s.config := rfl
@[simp] theorem emit_draws (es : List Event) (s : State) : (emit es s).draws = s.draws := rfl

/-! ### accept -/

@[simp] theorem accept_op (o : Op) (s : State) : (accept o s).op = o.code := rfl
@[simp] theorem accept_addr (o : Op) (s : State) : (accept o s).addr = s.addr := rfl
@[simp] theorem accept_len (o : Op) (s : State) : (accept o s).len = s.len := rfl
@[simp] theorem accept_wdata (o : Op) (s : State) : (accept o s).wdata = s.wdata := rfl
@[simp] theorem accept_rdata (o : Op) (s : State) : (accept o s).rdata = s.rdata := rfl
@[simp] theorem accept_status (o : Op) (s : State) : (accept o s).status = s.status := rfl
@[simp] theorem accept_busy (o : Op) (s : State) : (accept o s).busy = true := rfl
@[simp] theorem accept_cur (o : Op) (s : State) : (accept o s).cur = s.cur := rfl
@[simp] theorem accept_rem (o : Op) (s : State) : (accept o s).rem = s.rem := rfl
@[simp] theorem accept_idx (o : Op) (s : State) : (accept o s).idx = s.idx := rfl
@[simp] theorem accept_sr (o : Op) (s : State) : (accept o s).sr = s.sr := rfl
@[simp] theorem accept_al (o : Op) (s : State) : (accept o s).al = s.al := rfl
@[simp] theorem accept_ser (o : Op) (s : State) : (accept o s).ser = s.ser := rfl
@[simp] theorem accept_srclk (o : Op) (s : State) : (accept o s).srclk = s.srclk := rfl
@[simp] theorem accept_rclk (o : Op) (s : State) : (accept o s).rclk = s.rclk := rfl
@[simp] theorem accept_dir (o : Op) (s : State) : (accept o s).dir = s.dir := rfl
@[simp] theorem accept_dout (o : Op) (s : State) : (accept o s).dout = s.dout := rfl
@[simp] theorem accept_weN (o : Op) (s : State) : (accept o s).weN = s.weN := rfl
@[simp] theorem accept_oeN (o : Op) (s : State) : (accept o s).oeN = s.oeN := rfl
@[simp] theorem accept_ledProg (o : Op) (s : State) : (accept o s).ledProg = s.ledProg := rfl
@[simp] theorem accept_ledRead (o : Op) (s : State) : (accept o s).ledRead = s.ledRead := rfl
@[simp] theorem accept_tmrWe (o : Op) (s : State) : (accept o s).tmrWe = s.tmrWe := rfl
@[simp] theorem accept_tmrPage (o : Op) (s : State) : (accept o s).tmrPage = s.tmrPage := rfl
@[simp] theorem accept_mem (o : Op) (s : State) : (accept o s).mem = s.mem := rfl
@[simp] theorem accept_sdp (o : Op) (s : State) : (accept o s).sdp = s.sdp := rfl
@[simp] theorem accept_group (o : Op) (s : State) : (accept o s).group = s.group := rfl
@[simp] theorem accept_stream (o : Op) (s : State) : (accept o s).stream = s.stream := rfl
@[simp] theorem accept_rp (o : Op) (s : State) : (accept o s).rp = s.rp := rfl
@[simp] theorem accept_traceRev (o : Op) (s : State) : (accept o s).traceRev = s.traceRev := rfl
@[simp] theorem accept_recordsRev (o : Op) (s : State) : (accept o s).recordsRev = s.recordsRev := rfl
@[simp] theorem accept_config (o : Op) (s : State) : (accept o s).config = s.config := rfl
@[simp] theorem accept_draws (o : Op) (s : State) : (accept o s).draws = s.draws := rfl

/-! ### completeWith -/

@[simp] theorem completeWith_op (st : Byte) (r : Bool) (s : State) : (completeWith st r s).op = s.op := rfl
@[simp] theorem completeWith_addr (st : Byte) (r : Bool) (s : State) : (completeWith st r s).addr = s.addr := rfl
@[simp] theorem completeWith_len (st : Byte) (r : Bool) (s : State) : (completeWith st r s).len = s.len := rfl
@[simp] theorem completeWith_wdata (st : Byte) (r : Bool) (s : State) : (completeWith st r s).wdata = s.wdata := rfl
@[simp] theorem completeWith_rdata (st : Byte) (r : Bool) (s : State) : (completeWith st r s).rdata = s.rdata := rfl
@[simp] theorem completeWith_status (st : Byte) (r : Bool) (s : State) : (completeWith st r s).status = st := rfl
@[simp] theorem completeWith_busy (st : Byte) (r : Bool) (s : State) : (completeWith st r s).busy = false := rfl
@[simp] theorem completeWith_cur (st : Byte) (r : Bool) (s : State) : (completeWith st r s).cur = s.cur := rfl
@[simp] theorem completeWith_rem (st : Byte) (r : Bool) (s : State) : (completeWith st r s).rem = s.rem := rfl
@[simp] theorem completeWith_idx (st : Byte) (r : Bool) (s : State) : (completeWith st r s).idx = s.idx := rfl
@[simp] theorem completeWith_sr (st : Byte) (r : Bool) (s : State) : (completeWith st r s).sr = s.sr := rfl
@[simp] theorem completeWith_al (st : Byte) (r : Bool) (s : State) : (completeWith st r s).al = s.al := rfl
@[simp] theorem completeWith_ser (st : Byte) (r : Bool) (s : State) : (completeWith st r s).ser = s.ser := rfl
@[simp] theorem completeWith_srclk (st : Byte) (r : Bool) (s : State) : (completeWith st r s).srclk = s.srclk := rfl
@[simp] theorem completeWith_rclk (st : Byte) (r : Bool) (s : State) : (completeWith st r s).rclk = s.rclk := rfl
@[simp] theorem completeWith_dir (st : Byte) (r : Bool) (s : State) : (completeWith st r s).dir = s.dir := rfl
@[simp] theorem completeWith_dout (st : Byte) (r : Bool) (s : State) : (completeWith st r s).dout = s.dout := rfl
@[simp] theorem completeWith_weN (st : Byte) (r : Bool) (s : State) : (completeWith st r s).weN = s.weN := rfl
@[simp] theorem completeWith_oeN (st : Byte) (r : Bool) (s : State) : (completeWith st r s).oeN = s.oeN := rfl
@[simp] theorem completeWith_ledProg (st : Byte) (r : Bool) (s : State) : (completeWith st r s).ledProg = s.ledProg := rfl
@[simp] theorem completeWith_ledRead (st : Byte) (r : Bool) (s : State) : (completeWith st r s).ledRead = s.ledRead := rfl
@[simp] theorem completeWith_tmrWe (st : Byte) (r : Bool) (s : State) : (completeWith st r s).tmrWe = s.tmrWe := rfl
@[simp] theorem completeWith_tmrPage (st : Byte) (r : Bool) (s : State) : (completeWith st r s).tmrPage = s.tmrPage := rfl
@[simp] theorem completeWith_mem (st : Byte) (r : Bool) (s : State) : (completeWith st r s).mem = s.mem := rfl
@[simp] theorem completeWith_sdp (st : Byte) (r : Bool) (s : State) : (completeWith st r s).sdp = s.sdp := rfl
@[simp] theorem completeWith_group (st : Byte) (r : Bool) (s : State) : (completeWith st r s).group = s.group := rfl
@[simp] theorem completeWith_stream (st : Byte) (r : Bool) (s : State) : (completeWith st r s).stream = s.stream := rfl
@[simp] theorem completeWith_rp (st : Byte) (r : Bool) (s : State) : (completeWith st r s).rp = s.rp := rfl
@[simp] theorem completeWith_traceRev (st : Byte) (r : Bool) (s : State) : (completeWith st r s).traceRev = s.traceRev := rfl
@[simp] theorem completeWith_recordsRev (st : Byte) (r : Bool) (s : State) : (completeWith st r s).recordsRev = (if r then [st, s.rdata] else [st]) :: s.recordsRev := rfl
@[simp] theorem completeWith_config (st : Byte) (r : Bool) (s : State) : (completeWith st r s).config = s.config := rfl
@[simp] theorem completeWith_draws (st : Byte) (r : Bool) (s : State) : (completeWith st r s).draws = s.draws := rfl

/-! ### consume -/

@[simp] theorem consume_op (n : Nat) (s : State) : (consume n s).op = s.op := rfl
@[simp] theorem consume_addr (n : Nat) (s : State) : (consume n s).addr = s.addr := rfl
@[simp] theorem consume_len (n : Nat) (s : State) : (consume n s).len = s.len := rfl
@[simp] theorem consume_wdata (n : Nat) (s : State) : (consume n s).wdata = s.wdata := rfl
@[simp] theorem consume_rdata (n : Nat) (s : State) : (consume n s).rdata = s.rdata := rfl
@[simp] theorem consume_status (n : Nat) (s : State) : (consume n s).status = s.status := rfl
@[simp] theorem consume_busy (n : Nat) (s : State) : (consume n s).busy = s.busy := rfl
@[simp] theorem consume_cur (n : Nat) (s : State) : (consume n s).cur = s.cur := rfl
@[simp] theorem consume_rem (n : Nat) (s : State) : (consume n s).rem = s.rem := rfl
@[simp] theorem consume_idx (n : Nat) (s : State) : (consume n s).idx = s.idx := rfl
@[simp] theorem consume_sr (n : Nat) (s : State) : (consume n s).sr = s.sr := rfl
@[simp] theorem consume_al (n : Nat) (s : State) : (consume n s).al = s.al := rfl
@[simp] theorem consume_ser (n : Nat) (s : State) : (consume n s).ser = s.ser := rfl
@[simp] theorem consume_srclk (n : Nat) (s : State) : (consume n s).srclk = s.srclk := rfl
@[simp] theorem consume_rclk (n : Nat) (s : State) : (consume n s).rclk = s.rclk := rfl
@[simp] theorem consume_dir (n : Nat) (s : State) : (consume n s).dir = s.dir := rfl
@[simp] theorem consume_dout (n : Nat) (s : State) : (consume n s).dout = s.dout := rfl
@[simp] theorem consume_weN (n : Nat) (s : State) : (consume n s).weN = s.weN := rfl
@[simp] theorem consume_oeN (n : Nat) (s : State) : (consume n s).oeN = s.oeN := rfl
@[simp] theorem consume_ledProg (n : Nat) (s : State) : (consume n s).ledProg = s.ledProg := rfl
@[simp] theorem consume_ledRead (n : Nat) (s : State) : (consume n s).ledRead = s.ledRead := rfl
@[simp] theorem consume_tmrWe (n : Nat) (s : State) : (consume n s).tmrWe = s.tmrWe := rfl
@[simp] theorem consume_tmrPage (n : Nat) (s : State) : (consume n s).tmrPage = s.tmrPage := rfl
@[simp] theorem consume_mem (n : Nat) (s : State) : (consume n s).mem = s.mem := rfl
@[simp] theorem consume_sdp (n : Nat) (s : State) : (consume n s).sdp = s.sdp := rfl
@[simp] theorem consume_group (n : Nat) (s : State) : (consume n s).group = s.group := rfl
@[simp] theorem consume_stream (n : Nat) (s : State) : (consume n s).stream = s.stream := rfl
@[simp] theorem consume_rp (n : Nat) (s : State) : (consume n s).rp = s.rp + n := rfl
@[simp] theorem consume_traceRev (n : Nat) (s : State) : (consume n s).traceRev = s.traceRev := rfl
@[simp] theorem consume_recordsRev (n : Nat) (s : State) : (consume n s).recordsRev = s.recordsRev := rfl
@[simp] theorem consume_config (n : Nat) (s : State) : (consume n s).config = s.config := rfl
@[simp] theorem consume_draws (n : Nat) (s : State) : (consume n s).draws = s.draws := rfl

/-! ### memWrite -/

@[simp] theorem memWrite_op (a : Addr) (v : Byte) (s : State) : (memWrite a v s).op = s.op := rfl
@[simp] theorem memWrite_addr (a : Addr) (v : Byte) (s : State) : (memWrite a v s).addr = s.addr := rfl
@[simp] theorem memWrite_len (a : Addr) (v : Byte) (s : State) : (memWrite a v s).len = s.len := rfl
@[simp] theorem memWrite_wdata (a : Addr) (v : Byte) (s : State) : (memWrite a v s).wdata = s.wdata := rfl
@[simp] theorem memWrite_rdata (a : Addr) (v : Byte) (s : State) : (memWrite a v s).rdata = s.rdata := rfl
@[simp] theorem memWrite_status (a : Addr) (v : Byte) (s : State) : (memWrite a v s).status = s.status := rfl
@[simp] theorem memWrite_busy (a : Addr) (v : Byte) (s : State) : (memWrite a v s).busy = s.busy := rfl
@[simp] theorem memWrite_cur (a : Addr) (v : Byte) (s : State) : (memWrite a v s).cur = s.cur := rfl
@[simp] theorem memWrite_rem (a : Addr) (v : Byte) (s : State) : (memWrite a v s).rem = s.rem := rfl
@[simp] theorem memWrite_idx (a : Addr) (v : Byte) (s : State) : (memWrite a v s).idx = s.idx := rfl
@[simp] theorem memWrite_sr (a : Addr) (v : Byte) (s : State) : (memWrite a v s).sr = s.sr := rfl
@[simp] theorem memWrite_al (a : Addr) (v : Byte) (s : State) : (memWrite a v s).al = s.al := rfl
@[simp] theorem memWrite_ser (a : Addr) (v : Byte) (s : State) : (memWrite a v s).ser = s.ser := rfl
@[simp] theorem memWrite_srclk (a : Addr) (v : Byte) (s : State) : (memWrite a v s).srclk = s.srclk := rfl
@[simp] theorem memWrite_rclk (a : Addr) (v : Byte) (s : State) : (memWrite a v s).rclk = s.rclk := rfl
@[simp] theorem memWrite_dir (a : Addr) (v : Byte) (s : State) : (memWrite a v s).dir = s.dir := rfl
@[simp] theorem memWrite_dout (a : Addr) (v : Byte) (s : State) : (memWrite a v s).dout = s.dout := rfl
@[simp] theorem memWrite_weN (a : Addr) (v : Byte) (s : State) : (memWrite a v s).weN = s.weN := rfl
@[simp] theorem memWrite_oeN (a : Addr) (v : Byte) (s : State) : (memWrite a v s).oeN = s.oeN := rfl
@[simp] theorem memWrite_ledProg (a : Addr) (v : Byte) (s : State) : (memWrite a v s).ledProg = s.ledProg := rfl
@[simp] theorem memWrite_ledRead (a : Addr) (v : Byte) (s : State) : (memWrite a v s).ledRead = s.ledRead := rfl
@[simp] theorem memWrite_tmrWe (a : Addr) (v : Byte) (s : State) : (memWrite a v s).tmrWe = s.tmrWe := rfl
@[simp] theorem memWrite_tmrPage (a : Addr) (v : Byte) (s : State) : (memWrite a v s).tmrPage = s.tmrPage := rfl
@[simp] theorem memWrite_mem (a : Addr) (v : Byte) (s : State) : (memWrite a v s).mem = s.mem := rfl
@[simp] theorem memWrite_sdp (a : Addr) (v : Byte) (s : State) : (memWrite a v s).sdp = s.sdp := rfl
@[simp] theorem memWrite_group (a : Addr) (v : Byte) (s : State) : (memWrite a v s).group = s.group ++ [(a, v)] := rfl
@[simp] theorem memWrite_stream (a : Addr) (v : Byte) (s : State) : (memWrite a v s).stream = s.stream := rfl
@[simp] theorem memWrite_rp (a : Addr) (v : Byte) (s : State) : (memWrite a v s).rp = s.rp := rfl
@[simp] theorem memWrite_traceRev (a : Addr) (v : Byte) (s : State) : (memWrite a v s).traceRev = s.traceRev := rfl
@[simp] theorem memWrite_recordsRev (a : Addr) (v : Byte) (s : State) : (memWrite a v s).recordsRev = s.recordsRev := rfl
@[simp] theorem memWrite_config (a : Addr) (v : Byte) (s : State) : (memWrite a v s).config = s.config := rfl
@[simp] theorem memWrite_draws (a : Addr) (v : Byte) (s : State) : (memWrite a v s).draws = s.draws := rfl

/-! ### advanceCursor -/

@[simp] theorem advanceCursor_op (s : State) : (advanceCursor s).op = s.op := rfl
@[simp] theorem advanceCursor_addr (s : State) : (advanceCursor s).addr = s.addr := rfl
@[simp] theorem advanceCursor_len (s : State) : (advanceCursor s).len = s.len := rfl
@[simp] theorem advanceCursor_wdata (s : State) : (advanceCursor s).wdata = s.wdata := rfl
@[simp] theorem advanceCursor_rdata (s : State) : (advanceCursor s).rdata = s.rdata := rfl
@[simp] theorem advanceCursor_status (s : State) : (advanceCursor s).status = s.status := rfl
@[simp] theorem advanceCursor_busy (s : State) : (advanceCursor s).busy = s.busy := rfl
@[simp] theorem advanceCursor_cur (s : State) : (advanceCursor s).cur = s.cur + 1 := rfl
@[simp] theorem advanceCursor_rem (s : State) : (advanceCursor s).rem = s.rem - 1 := rfl
@[simp] theorem advanceCursor_idx (s : State) : (advanceCursor s).idx = s.idx := rfl
@[simp] theorem advanceCursor_sr (s : State) : (advanceCursor s).sr = s.sr := rfl
@[simp] theorem advanceCursor_al (s : State) : (advanceCursor s).al = s.al := rfl
@[simp] theorem advanceCursor_ser (s : State) : (advanceCursor s).ser = s.ser := rfl
@[simp] theorem advanceCursor_srclk (s : State) : (advanceCursor s).srclk = s.srclk := rfl
@[simp] theorem advanceCursor_rclk (s : State) : (advanceCursor s).rclk = s.rclk := rfl
@[simp] theorem advanceCursor_dir (s : State) : (advanceCursor s).dir = s.dir := rfl
@[simp] theorem advanceCursor_dout (s : State) : (advanceCursor s).dout = s.dout := rfl
@[simp] theorem advanceCursor_weN (s : State) : (advanceCursor s).weN = s.weN := rfl
@[simp] theorem advanceCursor_oeN (s : State) : (advanceCursor s).oeN = s.oeN := rfl
@[simp] theorem advanceCursor_ledProg (s : State) : (advanceCursor s).ledProg = s.ledProg := rfl
@[simp] theorem advanceCursor_ledRead (s : State) : (advanceCursor s).ledRead = s.ledRead := rfl
@[simp] theorem advanceCursor_tmrWe (s : State) : (advanceCursor s).tmrWe = s.tmrWe := rfl
@[simp] theorem advanceCursor_tmrPage (s : State) : (advanceCursor s).tmrPage = s.tmrPage := rfl
@[simp] theorem advanceCursor_mem (s : State) : (advanceCursor s).mem = s.mem := rfl
@[simp] theorem advanceCursor_sdp (s : State) : (advanceCursor s).sdp = s.sdp := rfl
@[simp] theorem advanceCursor_group (s : State) : (advanceCursor s).group = s.group := rfl
@[simp] theorem advanceCursor_stream (s : State) : (advanceCursor s).stream = s.stream := rfl
@[simp] theorem advanceCursor_rp (s : State) : (advanceCursor s).rp = s.rp := rfl
@[simp] theorem advanceCursor_traceRev (s : State) : (advanceCursor s).traceRev = s.traceRev := rfl
@[simp] theorem advanceCursor_recordsRev (s : State) : (advanceCursor s).recordsRev = s.recordsRev := rfl
@[simp] theorem advanceCursor_config (s : State) : (advanceCursor s).config = s.config := rfl
@[simp] theorem advanceCursor_draws (s : State) : (advanceCursor s).draws = s.draws := rfl

/-! ### storeAny -/

@[simp] theorem storeAny_op (a : Addr) (s : State) : (storeAny a s).op = s.op := rfl
@[simp] theorem storeAny_addr (a : Addr) (s : State) : (storeAny a s).addr = s.addr := rfl
@[simp] theorem storeAny_len (a : Addr) (s : State) : (storeAny a s).len = s.len := rfl
@[simp] theorem storeAny_wdata (a : Addr) (s : State) : (storeAny a s).wdata = s.wdata := rfl
@[simp] theorem storeAny_rdata (a : Addr) (s : State) : (storeAny a s).rdata = s.rdata := rfl
@[simp] theorem storeAny_status (a : Addr) (s : State) : (storeAny a s).status = s.status := rfl
@[simp] theorem storeAny_busy (a : Addr) (s : State) : (storeAny a s).busy = s.busy := rfl
@[simp] theorem storeAny_cur (a : Addr) (s : State) : (storeAny a s).cur = s.cur := rfl
@[simp] theorem storeAny_rem (a : Addr) (s : State) : (storeAny a s).rem = s.rem := rfl
@[simp] theorem storeAny_idx (a : Addr) (s : State) : (storeAny a s).idx = s.idx := rfl
@[simp] theorem storeAny_sr (a : Addr) (s : State) : (storeAny a s).sr = s.sr := rfl
@[simp] theorem storeAny_al (a : Addr) (s : State) : (storeAny a s).al = s.al := rfl
@[simp] theorem storeAny_ser (a : Addr) (s : State) : (storeAny a s).ser = s.ser := rfl
@[simp] theorem storeAny_srclk (a : Addr) (s : State) : (storeAny a s).srclk = s.srclk := rfl
@[simp] theorem storeAny_rclk (a : Addr) (s : State) : (storeAny a s).rclk = s.rclk := rfl
@[simp] theorem storeAny_dir (a : Addr) (s : State) : (storeAny a s).dir = s.dir := rfl
@[simp] theorem storeAny_dout (a : Addr) (s : State) : (storeAny a s).dout = s.dout := rfl
@[simp] theorem storeAny_weN (a : Addr) (s : State) : (storeAny a s).weN = s.weN := rfl
@[simp] theorem storeAny_oeN (a : Addr) (s : State) : (storeAny a s).oeN = s.oeN := rfl
@[simp] theorem storeAny_ledProg (a : Addr) (s : State) : (storeAny a s).ledProg = s.ledProg := rfl
@[simp] theorem storeAny_ledRead (a : Addr) (s : State) : (storeAny a s).ledRead = s.ledRead := rfl
@[simp] theorem storeAny_tmrWe (a : Addr) (s : State) : (storeAny a s).tmrWe = s.tmrWe := rfl
@[simp] theorem storeAny_tmrPage (a : Addr) (s : State) : (storeAny a s).tmrPage = s.tmrPage := rfl
@[simp] theorem storeAny_mem (a : Addr) (s : State) : (storeAny a s).mem = writeCell s.mem a.toNat (Config.freeBits 8 s.draws) := rfl
@[simp] theorem storeAny_sdp (a : Addr) (s : State) : (storeAny a s).sdp = s.sdp := rfl
@[simp] theorem storeAny_group (a : Addr) (s : State) : (storeAny a s).group = s.group := rfl
@[simp] theorem storeAny_stream (a : Addr) (s : State) : (storeAny a s).stream = s.stream := rfl
@[simp] theorem storeAny_rp (a : Addr) (s : State) : (storeAny a s).rp = s.rp := rfl
@[simp] theorem storeAny_traceRev (a : Addr) (s : State) : (storeAny a s).traceRev = s.traceRev := rfl
@[simp] theorem storeAny_recordsRev (a : Addr) (s : State) : (storeAny a s).recordsRev = s.recordsRev := rfl
@[simp] theorem storeAny_config (a : Addr) (s : State) : (storeAny a s).config = s.config := rfl
@[simp] theorem storeAny_draws (a : Addr) (s : State) : (storeAny a s).draws = s.draws + 1 := rfl

/-! ### forgetCursor -/

@[simp] theorem forgetCursor_op (s : State) : (forgetCursor s).op = s.op := rfl
@[simp] theorem forgetCursor_addr (s : State) : (forgetCursor s).addr = s.addr := rfl
@[simp] theorem forgetCursor_len (s : State) : (forgetCursor s).len = s.len := rfl
@[simp] theorem forgetCursor_wdata (s : State) : (forgetCursor s).wdata = s.wdata := rfl
@[simp] theorem forgetCursor_rdata (s : State) : (forgetCursor s).rdata = s.rdata := rfl
@[simp] theorem forgetCursor_status (s : State) : (forgetCursor s).status = s.status := rfl
@[simp] theorem forgetCursor_busy (s : State) : (forgetCursor s).busy = s.busy := rfl
@[simp] theorem forgetCursor_cur (s : State) : (forgetCursor s).cur = Config.freeBits 16 s.draws := rfl
@[simp] theorem forgetCursor_rem (s : State) : (forgetCursor s).rem = Config.freeBits 16 (s.draws + 1) := rfl
@[simp] theorem forgetCursor_idx (s : State) : (forgetCursor s).idx = s.idx := rfl
@[simp] theorem forgetCursor_sr (s : State) : (forgetCursor s).sr = s.sr := rfl
@[simp] theorem forgetCursor_al (s : State) : (forgetCursor s).al = s.al := rfl
@[simp] theorem forgetCursor_ser (s : State) : (forgetCursor s).ser = s.ser := rfl
@[simp] theorem forgetCursor_srclk (s : State) : (forgetCursor s).srclk = s.srclk := rfl
@[simp] theorem forgetCursor_rclk (s : State) : (forgetCursor s).rclk = s.rclk := rfl
@[simp] theorem forgetCursor_dir (s : State) : (forgetCursor s).dir = s.dir := rfl
@[simp] theorem forgetCursor_dout (s : State) : (forgetCursor s).dout = s.dout := rfl
@[simp] theorem forgetCursor_weN (s : State) : (forgetCursor s).weN = s.weN := rfl
@[simp] theorem forgetCursor_oeN (s : State) : (forgetCursor s).oeN = s.oeN := rfl
@[simp] theorem forgetCursor_ledProg (s : State) : (forgetCursor s).ledProg = s.ledProg := rfl
@[simp] theorem forgetCursor_ledRead (s : State) : (forgetCursor s).ledRead = s.ledRead := rfl
@[simp] theorem forgetCursor_tmrWe (s : State) : (forgetCursor s).tmrWe = s.tmrWe := rfl
@[simp] theorem forgetCursor_tmrPage (s : State) : (forgetCursor s).tmrPage = s.tmrPage := rfl
@[simp] theorem forgetCursor_mem (s : State) : (forgetCursor s).mem = s.mem := rfl
@[simp] theorem forgetCursor_sdp (s : State) : (forgetCursor s).sdp = s.sdp := rfl
@[simp] theorem forgetCursor_group (s : State) : (forgetCursor s).group = s.group := rfl
@[simp] theorem forgetCursor_stream (s : State) : (forgetCursor s).stream = s.stream := rfl
@[simp] theorem forgetCursor_rp (s : State) : (forgetCursor s).rp = s.rp := rfl
@[simp] theorem forgetCursor_traceRev (s : State) : (forgetCursor s).traceRev = s.traceRev := rfl
@[simp] theorem forgetCursor_recordsRev (s : State) : (forgetCursor s).recordsRev = s.recordsRev := rfl
@[simp] theorem forgetCursor_config (s : State) : (forgetCursor s).config = s.config := rfl
@[simp] theorem forgetCursor_draws (s : State) : (forgetCursor s).draws = s.draws + 2 := rfl

/-! ### forgetIndex -/

@[simp] theorem forgetIndex_op (s : State) : (forgetIndex s).op = s.op := rfl
@[simp] theorem forgetIndex_addr (s : State) : (forgetIndex s).addr = s.addr := rfl
@[simp] theorem forgetIndex_len (s : State) : (forgetIndex s).len = s.len := rfl
@[simp] theorem forgetIndex_wdata (s : State) : (forgetIndex s).wdata = s.wdata := rfl
@[simp] theorem forgetIndex_rdata (s : State) : (forgetIndex s).rdata = s.rdata := rfl
@[simp] theorem forgetIndex_status (s : State) : (forgetIndex s).status = s.status := rfl
@[simp] theorem forgetIndex_busy (s : State) : (forgetIndex s).busy = s.busy := rfl
@[simp] theorem forgetIndex_cur (s : State) : (forgetIndex s).cur = s.cur := rfl
@[simp] theorem forgetIndex_rem (s : State) : (forgetIndex s).rem = s.rem := rfl
@[simp] theorem forgetIndex_idx (s : State) : (forgetIndex s).idx = Config.freeBits 3 s.draws := rfl
@[simp] theorem forgetIndex_sr (s : State) : (forgetIndex s).sr = s.sr := rfl
@[simp] theorem forgetIndex_al (s : State) : (forgetIndex s).al = s.al := rfl
@[simp] theorem forgetIndex_ser (s : State) : (forgetIndex s).ser = s.ser := rfl
@[simp] theorem forgetIndex_srclk (s : State) : (forgetIndex s).srclk = s.srclk := rfl
@[simp] theorem forgetIndex_rclk (s : State) : (forgetIndex s).rclk = s.rclk := rfl
@[simp] theorem forgetIndex_dir (s : State) : (forgetIndex s).dir = s.dir := rfl
@[simp] theorem forgetIndex_dout (s : State) : (forgetIndex s).dout = s.dout := rfl
@[simp] theorem forgetIndex_weN (s : State) : (forgetIndex s).weN = s.weN := rfl
@[simp] theorem forgetIndex_oeN (s : State) : (forgetIndex s).oeN = s.oeN := rfl
@[simp] theorem forgetIndex_ledProg (s : State) : (forgetIndex s).ledProg = s.ledProg := rfl
@[simp] theorem forgetIndex_ledRead (s : State) : (forgetIndex s).ledRead = s.ledRead := rfl
@[simp] theorem forgetIndex_tmrWe (s : State) : (forgetIndex s).tmrWe = s.tmrWe := rfl
@[simp] theorem forgetIndex_tmrPage (s : State) : (forgetIndex s).tmrPage = s.tmrPage := rfl
@[simp] theorem forgetIndex_mem (s : State) : (forgetIndex s).mem = s.mem := rfl
@[simp] theorem forgetIndex_sdp (s : State) : (forgetIndex s).sdp = s.sdp := rfl
@[simp] theorem forgetIndex_group (s : State) : (forgetIndex s).group = s.group := rfl
@[simp] theorem forgetIndex_stream (s : State) : (forgetIndex s).stream = s.stream := rfl
@[simp] theorem forgetIndex_rp (s : State) : (forgetIndex s).rp = s.rp := rfl
@[simp] theorem forgetIndex_traceRev (s : State) : (forgetIndex s).traceRev = s.traceRev := rfl
@[simp] theorem forgetIndex_recordsRev (s : State) : (forgetIndex s).recordsRev = s.recordsRev := rfl
@[simp] theorem forgetIndex_config (s : State) : (forgetIndex s).config = s.config := rfl
@[simp] theorem forgetIndex_draws (s : State) : (forgetIndex s).draws = s.draws + 1 := rfl

/-! ### loadAddr -/

@[simp] theorem loadAddr_op (a : Word) (s : State) : (loadAddr a s).op = s.op := rfl
@[simp] theorem loadAddr_addr (a : Word) (s : State) : (loadAddr a s).addr = a := rfl
@[simp] theorem loadAddr_len (a : Word) (s : State) : (loadAddr a s).len = s.len := rfl
@[simp] theorem loadAddr_wdata (a : Word) (s : State) : (loadAddr a s).wdata = s.wdata := rfl
@[simp] theorem loadAddr_rdata (a : Word) (s : State) : (loadAddr a s).rdata = s.rdata := rfl
@[simp] theorem loadAddr_status (a : Word) (s : State) : (loadAddr a s).status = s.status := rfl
@[simp] theorem loadAddr_busy (a : Word) (s : State) : (loadAddr a s).busy = s.busy := rfl
@[simp] theorem loadAddr_cur (a : Word) (s : State) : (loadAddr a s).cur = s.cur := rfl
@[simp] theorem loadAddr_rem (a : Word) (s : State) : (loadAddr a s).rem = s.rem := rfl
@[simp] theorem loadAddr_idx (a : Word) (s : State) : (loadAddr a s).idx = s.idx := rfl
@[simp] theorem loadAddr_sr (a : Word) (s : State) : (loadAddr a s).sr = s.sr := rfl
@[simp] theorem loadAddr_al (a : Word) (s : State) : (loadAddr a s).al = s.al := rfl
@[simp] theorem loadAddr_ser (a : Word) (s : State) : (loadAddr a s).ser = s.ser := rfl
@[simp] theorem loadAddr_srclk (a : Word) (s : State) : (loadAddr a s).srclk = s.srclk := rfl
@[simp] theorem loadAddr_rclk (a : Word) (s : State) : (loadAddr a s).rclk = s.rclk := rfl
@[simp] theorem loadAddr_dir (a : Word) (s : State) : (loadAddr a s).dir = s.dir := rfl
@[simp] theorem loadAddr_dout (a : Word) (s : State) : (loadAddr a s).dout = s.dout := rfl
@[simp] theorem loadAddr_weN (a : Word) (s : State) : (loadAddr a s).weN = s.weN := rfl
@[simp] theorem loadAddr_oeN (a : Word) (s : State) : (loadAddr a s).oeN = s.oeN := rfl
@[simp] theorem loadAddr_ledProg (a : Word) (s : State) : (loadAddr a s).ledProg = s.ledProg := rfl
@[simp] theorem loadAddr_ledRead (a : Word) (s : State) : (loadAddr a s).ledRead = s.ledRead := rfl
@[simp] theorem loadAddr_tmrWe (a : Word) (s : State) : (loadAddr a s).tmrWe = s.tmrWe := rfl
@[simp] theorem loadAddr_tmrPage (a : Word) (s : State) : (loadAddr a s).tmrPage = s.tmrPage := rfl
@[simp] theorem loadAddr_mem (a : Word) (s : State) : (loadAddr a s).mem = s.mem := rfl
@[simp] theorem loadAddr_sdp (a : Word) (s : State) : (loadAddr a s).sdp = s.sdp := rfl
@[simp] theorem loadAddr_group (a : Word) (s : State) : (loadAddr a s).group = s.group := rfl
@[simp] theorem loadAddr_stream (a : Word) (s : State) : (loadAddr a s).stream = s.stream := rfl
@[simp] theorem loadAddr_rp (a : Word) (s : State) : (loadAddr a s).rp = s.rp := rfl
@[simp] theorem loadAddr_traceRev (a : Word) (s : State) : (loadAddr a s).traceRev = s.traceRev := rfl
@[simp] theorem loadAddr_recordsRev (a : Word) (s : State) : (loadAddr a s).recordsRev = s.recordsRev := rfl
@[simp] theorem loadAddr_config (a : Word) (s : State) : (loadAddr a s).config = s.config := rfl
@[simp] theorem loadAddr_draws (a : Word) (s : State) : (loadAddr a s).draws = s.draws := rfl

/-! ### loadLen -/

@[simp] theorem loadLen_op (n : Word) (s : State) : (loadLen n s).op = s.op := rfl
@[simp] theorem loadLen_addr (n : Word) (s : State) : (loadLen n s).addr = s.addr := rfl
@[simp] theorem loadLen_len (n : Word) (s : State) : (loadLen n s).len = n := rfl
@[simp] theorem loadLen_wdata (n : Word) (s : State) : (loadLen n s).wdata = s.wdata := rfl
@[simp] theorem loadLen_rdata (n : Word) (s : State) : (loadLen n s).rdata = s.rdata := rfl
@[simp] theorem loadLen_status (n : Word) (s : State) : (loadLen n s).status = s.status := rfl
@[simp] theorem loadLen_busy (n : Word) (s : State) : (loadLen n s).busy = s.busy := rfl
@[simp] theorem loadLen_cur (n : Word) (s : State) : (loadLen n s).cur = s.cur := rfl
@[simp] theorem loadLen_rem (n : Word) (s : State) : (loadLen n s).rem = s.rem := rfl
@[simp] theorem loadLen_idx (n : Word) (s : State) : (loadLen n s).idx = s.idx := rfl
@[simp] theorem loadLen_sr (n : Word) (s : State) : (loadLen n s).sr = s.sr := rfl
@[simp] theorem loadLen_al (n : Word) (s : State) : (loadLen n s).al = s.al := rfl
@[simp] theorem loadLen_ser (n : Word) (s : State) : (loadLen n s).ser = s.ser := rfl
@[simp] theorem loadLen_srclk (n : Word) (s : State) : (loadLen n s).srclk = s.srclk := rfl
@[simp] theorem loadLen_rclk (n : Word) (s : State) : (loadLen n s).rclk = s.rclk := rfl
@[simp] theorem loadLen_dir (n : Word) (s : State) : (loadLen n s).dir = s.dir := rfl
@[simp] theorem loadLen_dout (n : Word) (s : State) : (loadLen n s).dout = s.dout := rfl
@[simp] theorem loadLen_weN (n : Word) (s : State) : (loadLen n s).weN = s.weN := rfl
@[simp] theorem loadLen_oeN (n : Word) (s : State) : (loadLen n s).oeN = s.oeN := rfl
@[simp] theorem loadLen_ledProg (n : Word) (s : State) : (loadLen n s).ledProg = s.ledProg := rfl
@[simp] theorem loadLen_ledRead (n : Word) (s : State) : (loadLen n s).ledRead = s.ledRead := rfl
@[simp] theorem loadLen_tmrWe (n : Word) (s : State) : (loadLen n s).tmrWe = s.tmrWe := rfl
@[simp] theorem loadLen_tmrPage (n : Word) (s : State) : (loadLen n s).tmrPage = s.tmrPage := rfl
@[simp] theorem loadLen_mem (n : Word) (s : State) : (loadLen n s).mem = s.mem := rfl
@[simp] theorem loadLen_sdp (n : Word) (s : State) : (loadLen n s).sdp = s.sdp := rfl
@[simp] theorem loadLen_group (n : Word) (s : State) : (loadLen n s).group = s.group := rfl
@[simp] theorem loadLen_stream (n : Word) (s : State) : (loadLen n s).stream = s.stream := rfl
@[simp] theorem loadLen_rp (n : Word) (s : State) : (loadLen n s).rp = s.rp := rfl
@[simp] theorem loadLen_traceRev (n : Word) (s : State) : (loadLen n s).traceRev = s.traceRev := rfl
@[simp] theorem loadLen_recordsRev (n : Word) (s : State) : (loadLen n s).recordsRev = s.recordsRev := rfl
@[simp] theorem loadLen_config (n : Word) (s : State) : (loadLen n s).config = s.config := rfl
@[simp] theorem loadLen_draws (n : Word) (s : State) : (loadLen n s).draws = s.draws := rfl

/-! ### loadWdata -/

@[simp] theorem loadWdata_op (v : Byte) (s : State) : (loadWdata v s).op = s.op := rfl
@[simp] theorem loadWdata_addr (v : Byte) (s : State) : (loadWdata v s).addr = s.addr := rfl
@[simp] theorem loadWdata_len (v : Byte) (s : State) : (loadWdata v s).len = s.len := rfl
@[simp] theorem loadWdata_wdata (v : Byte) (s : State) : (loadWdata v s).wdata = v := rfl
@[simp] theorem loadWdata_rdata (v : Byte) (s : State) : (loadWdata v s).rdata = s.rdata := rfl
@[simp] theorem loadWdata_status (v : Byte) (s : State) : (loadWdata v s).status = s.status := rfl
@[simp] theorem loadWdata_busy (v : Byte) (s : State) : (loadWdata v s).busy = s.busy := rfl
@[simp] theorem loadWdata_cur (v : Byte) (s : State) : (loadWdata v s).cur = s.cur := rfl
@[simp] theorem loadWdata_rem (v : Byte) (s : State) : (loadWdata v s).rem = s.rem := rfl
@[simp] theorem loadWdata_idx (v : Byte) (s : State) : (loadWdata v s).idx = s.idx := rfl
@[simp] theorem loadWdata_sr (v : Byte) (s : State) : (loadWdata v s).sr = s.sr := rfl
@[simp] theorem loadWdata_al (v : Byte) (s : State) : (loadWdata v s).al = s.al := rfl
@[simp] theorem loadWdata_ser (v : Byte) (s : State) : (loadWdata v s).ser = s.ser := rfl
@[simp] theorem loadWdata_srclk (v : Byte) (s : State) : (loadWdata v s).srclk = s.srclk := rfl
@[simp] theorem loadWdata_rclk (v : Byte) (s : State) : (loadWdata v s).rclk = s.rclk := rfl
@[simp] theorem loadWdata_dir (v : Byte) (s : State) : (loadWdata v s).dir = s.dir := rfl
@[simp] theorem loadWdata_dout (v : Byte) (s : State) : (loadWdata v s).dout = s.dout := rfl
@[simp] theorem loadWdata_weN (v : Byte) (s : State) : (loadWdata v s).weN = s.weN := rfl
@[simp] theorem loadWdata_oeN (v : Byte) (s : State) : (loadWdata v s).oeN = s.oeN := rfl
@[simp] theorem loadWdata_ledProg (v : Byte) (s : State) : (loadWdata v s).ledProg = s.ledProg := rfl
@[simp] theorem loadWdata_ledRead (v : Byte) (s : State) : (loadWdata v s).ledRead = s.ledRead := rfl
@[simp] theorem loadWdata_tmrWe (v : Byte) (s : State) : (loadWdata v s).tmrWe = s.tmrWe := rfl
@[simp] theorem loadWdata_tmrPage (v : Byte) (s : State) : (loadWdata v s).tmrPage = s.tmrPage := rfl
@[simp] theorem loadWdata_mem (v : Byte) (s : State) : (loadWdata v s).mem = s.mem := rfl
@[simp] theorem loadWdata_sdp (v : Byte) (s : State) : (loadWdata v s).sdp = s.sdp := rfl
@[simp] theorem loadWdata_group (v : Byte) (s : State) : (loadWdata v s).group = s.group := rfl
@[simp] theorem loadWdata_stream (v : Byte) (s : State) : (loadWdata v s).stream = s.stream := rfl
@[simp] theorem loadWdata_rp (v : Byte) (s : State) : (loadWdata v s).rp = s.rp := rfl
@[simp] theorem loadWdata_traceRev (v : Byte) (s : State) : (loadWdata v s).traceRev = s.traceRev := rfl
@[simp] theorem loadWdata_recordsRev (v : Byte) (s : State) : (loadWdata v s).recordsRev = s.recordsRev := rfl
@[simp] theorem loadWdata_config (v : Byte) (s : State) : (loadWdata v s).config = s.config := rfl
@[simp] theorem loadWdata_draws (v : Byte) (s : State) : (loadWdata v s).draws = s.draws := rfl

/-! ### setRdata -/

@[simp] theorem setRdata_op (v : Byte) (s : State) : (setRdata v s).op = s.op := rfl
@[simp] theorem setRdata_addr (v : Byte) (s : State) : (setRdata v s).addr = s.addr := rfl
@[simp] theorem setRdata_len (v : Byte) (s : State) : (setRdata v s).len = s.len := rfl
@[simp] theorem setRdata_wdata (v : Byte) (s : State) : (setRdata v s).wdata = s.wdata := rfl
@[simp] theorem setRdata_rdata (v : Byte) (s : State) : (setRdata v s).rdata = v := rfl
@[simp] theorem setRdata_status (v : Byte) (s : State) : (setRdata v s).status = s.status := rfl
@[simp] theorem setRdata_busy (v : Byte) (s : State) : (setRdata v s).busy = s.busy := rfl
@[simp] theorem setRdata_cur (v : Byte) (s : State) : (setRdata v s).cur = s.cur := rfl
@[simp] theorem setRdata_rem (v : Byte) (s : State) : (setRdata v s).rem = s.rem := rfl
@[simp] theorem setRdata_idx (v : Byte) (s : State) : (setRdata v s).idx = s.idx := rfl
@[simp] theorem setRdata_sr (v : Byte) (s : State) : (setRdata v s).sr = s.sr := rfl
@[simp] theorem setRdata_al (v : Byte) (s : State) : (setRdata v s).al = s.al := rfl
@[simp] theorem setRdata_ser (v : Byte) (s : State) : (setRdata v s).ser = s.ser := rfl
@[simp] theorem setRdata_srclk (v : Byte) (s : State) : (setRdata v s).srclk = s.srclk := rfl
@[simp] theorem setRdata_rclk (v : Byte) (s : State) : (setRdata v s).rclk = s.rclk := rfl
@[simp] theorem setRdata_dir (v : Byte) (s : State) : (setRdata v s).dir = s.dir := rfl
@[simp] theorem setRdata_dout (v : Byte) (s : State) : (setRdata v s).dout = s.dout := rfl
@[simp] theorem setRdata_weN (v : Byte) (s : State) : (setRdata v s).weN = s.weN := rfl
@[simp] theorem setRdata_oeN (v : Byte) (s : State) : (setRdata v s).oeN = s.oeN := rfl
@[simp] theorem setRdata_ledProg (v : Byte) (s : State) : (setRdata v s).ledProg = s.ledProg := rfl
@[simp] theorem setRdata_ledRead (v : Byte) (s : State) : (setRdata v s).ledRead = s.ledRead := rfl
@[simp] theorem setRdata_tmrWe (v : Byte) (s : State) : (setRdata v s).tmrWe = s.tmrWe := rfl
@[simp] theorem setRdata_tmrPage (v : Byte) (s : State) : (setRdata v s).tmrPage = s.tmrPage := rfl
@[simp] theorem setRdata_mem (v : Byte) (s : State) : (setRdata v s).mem = s.mem := rfl
@[simp] theorem setRdata_sdp (v : Byte) (s : State) : (setRdata v s).sdp = s.sdp := rfl
@[simp] theorem setRdata_group (v : Byte) (s : State) : (setRdata v s).group = s.group := rfl
@[simp] theorem setRdata_stream (v : Byte) (s : State) : (setRdata v s).stream = s.stream := rfl
@[simp] theorem setRdata_rp (v : Byte) (s : State) : (setRdata v s).rp = s.rp := rfl
@[simp] theorem setRdata_traceRev (v : Byte) (s : State) : (setRdata v s).traceRev = s.traceRev := rfl
@[simp] theorem setRdata_recordsRev (v : Byte) (s : State) : (setRdata v s).recordsRev = s.recordsRev := rfl
@[simp] theorem setRdata_config (v : Byte) (s : State) : (setRdata v s).config = s.config := rfl
@[simp] theorem setRdata_draws (v : Byte) (s : State) : (setRdata v s).draws = s.draws := rfl

/-! ### startCursor -/

@[simp] theorem startCursor_op (a n : Word) (s : State) : (startCursor a n s).op = s.op := rfl
@[simp] theorem startCursor_addr (a n : Word) (s : State) : (startCursor a n s).addr = s.addr := rfl
@[simp] theorem startCursor_len (a n : Word) (s : State) : (startCursor a n s).len = s.len := rfl
@[simp] theorem startCursor_wdata (a n : Word) (s : State) : (startCursor a n s).wdata = s.wdata := rfl
@[simp] theorem startCursor_rdata (a n : Word) (s : State) : (startCursor a n s).rdata = s.rdata := rfl
@[simp] theorem startCursor_status (a n : Word) (s : State) : (startCursor a n s).status = s.status := rfl
@[simp] theorem startCursor_busy (a n : Word) (s : State) : (startCursor a n s).busy = s.busy := rfl
@[simp] theorem startCursor_cur (a n : Word) (s : State) : (startCursor a n s).cur = a := rfl
@[simp] theorem startCursor_rem (a n : Word) (s : State) : (startCursor a n s).rem = n := rfl
@[simp] theorem startCursor_idx (a n : Word) (s : State) : (startCursor a n s).idx = s.idx := rfl
@[simp] theorem startCursor_sr (a n : Word) (s : State) : (startCursor a n s).sr = s.sr := rfl
@[simp] theorem startCursor_al (a n : Word) (s : State) : (startCursor a n s).al = s.al := rfl
@[simp] theorem startCursor_ser (a n : Word) (s : State) : (startCursor a n s).ser = s.ser := rfl
@[simp] theorem startCursor_srclk (a n : Word) (s : State) : (startCursor a n s).srclk = s.srclk := rfl
@[simp] theorem startCursor_rclk (a n : Word) (s : State) : (startCursor a n s).rclk = s.rclk := rfl
@[simp] theorem startCursor_dir (a n : Word) (s : State) : (startCursor a n s).dir = s.dir := rfl
@[simp] theorem startCursor_dout (a n : Word) (s : State) : (startCursor a n s).dout = s.dout := rfl
@[simp] theorem startCursor_weN (a n : Word) (s : State) : (startCursor a n s).weN = s.weN := rfl
@[simp] theorem startCursor_oeN (a n : Word) (s : State) : (startCursor a n s).oeN = s.oeN := rfl
@[simp] theorem startCursor_ledProg (a n : Word) (s : State) : (startCursor a n s).ledProg = s.ledProg := rfl
@[simp] theorem startCursor_ledRead (a n : Word) (s : State) : (startCursor a n s).ledRead = s.ledRead := rfl
@[simp] theorem startCursor_tmrWe (a n : Word) (s : State) : (startCursor a n s).tmrWe = s.tmrWe := rfl
@[simp] theorem startCursor_tmrPage (a n : Word) (s : State) : (startCursor a n s).tmrPage = s.tmrPage := rfl
@[simp] theorem startCursor_mem (a n : Word) (s : State) : (startCursor a n s).mem = s.mem := rfl
@[simp] theorem startCursor_sdp (a n : Word) (s : State) : (startCursor a n s).sdp = s.sdp := rfl
@[simp] theorem startCursor_group (a n : Word) (s : State) : (startCursor a n s).group = s.group := rfl
@[simp] theorem startCursor_stream (a n : Word) (s : State) : (startCursor a n s).stream = s.stream := rfl
@[simp] theorem startCursor_rp (a n : Word) (s : State) : (startCursor a n s).rp = s.rp := rfl
@[simp] theorem startCursor_traceRev (a n : Word) (s : State) : (startCursor a n s).traceRev = s.traceRev := rfl
@[simp] theorem startCursor_recordsRev (a n : Word) (s : State) : (startCursor a n s).recordsRev = s.recordsRev := rfl
@[simp] theorem startCursor_config (a n : Word) (s : State) : (startCursor a n s).config = s.config := rfl
@[simp] theorem startCursor_draws (a n : Word) (s : State) : (startCursor a n s).draws = s.draws := rfl

/-! ### setIndex -/

@[simp] theorem setIndex_op (k : Nat) (s : State) : (setIndex k s).op = s.op := rfl
@[simp] theorem setIndex_addr (k : Nat) (s : State) : (setIndex k s).addr = s.addr := rfl
@[simp] theorem setIndex_len (k : Nat) (s : State) : (setIndex k s).len = s.len := rfl
@[simp] theorem setIndex_wdata (k : Nat) (s : State) : (setIndex k s).wdata = s.wdata := rfl
@[simp] theorem setIndex_rdata (k : Nat) (s : State) : (setIndex k s).rdata = s.rdata := rfl
@[simp] theorem setIndex_status (k : Nat) (s : State) : (setIndex k s).status = s.status := rfl
@[simp] theorem setIndex_busy (k : Nat) (s : State) : (setIndex k s).busy = s.busy := rfl
@[simp] theorem setIndex_cur (k : Nat) (s : State) : (setIndex k s).cur = s.cur := rfl
@[simp] theorem setIndex_rem (k : Nat) (s : State) : (setIndex k s).rem = s.rem := rfl
@[simp] theorem setIndex_idx (k : Nat) (s : State) : (setIndex k s).idx = BitVec.ofNat 3 k := rfl
@[simp] theorem setIndex_sr (k : Nat) (s : State) : (setIndex k s).sr = s.sr := rfl
@[simp] theorem setIndex_al (k : Nat) (s : State) : (setIndex k s).al = s.al := rfl
@[simp] theorem setIndex_ser (k : Nat) (s : State) : (setIndex k s).ser = s.ser := rfl
@[simp] theorem setIndex_srclk (k : Nat) (s : State) : (setIndex k s).srclk = s.srclk := rfl
@[simp] theorem setIndex_rclk (k : Nat) (s : State) : (setIndex k s).rclk = s.rclk := rfl
@[simp] theorem setIndex_dir (k : Nat) (s : State) : (setIndex k s).dir = s.dir := rfl
@[simp] theorem setIndex_dout (k : Nat) (s : State) : (setIndex k s).dout = s.dout := rfl
@[simp] theorem setIndex_weN (k : Nat) (s : State) : (setIndex k s).weN = s.weN := rfl
@[simp] theorem setIndex_oeN (k : Nat) (s : State) : (setIndex k s).oeN = s.oeN := rfl
@[simp] theorem setIndex_ledProg (k : Nat) (s : State) : (setIndex k s).ledProg = s.ledProg := rfl
@[simp] theorem setIndex_ledRead (k : Nat) (s : State) : (setIndex k s).ledRead = s.ledRead := rfl
@[simp] theorem setIndex_tmrWe (k : Nat) (s : State) : (setIndex k s).tmrWe = s.tmrWe := rfl
@[simp] theorem setIndex_tmrPage (k : Nat) (s : State) : (setIndex k s).tmrPage = s.tmrPage := rfl
@[simp] theorem setIndex_mem (k : Nat) (s : State) : (setIndex k s).mem = s.mem := rfl
@[simp] theorem setIndex_sdp (k : Nat) (s : State) : (setIndex k s).sdp = s.sdp := rfl
@[simp] theorem setIndex_group (k : Nat) (s : State) : (setIndex k s).group = s.group := rfl
@[simp] theorem setIndex_stream (k : Nat) (s : State) : (setIndex k s).stream = s.stream := rfl
@[simp] theorem setIndex_rp (k : Nat) (s : State) : (setIndex k s).rp = s.rp := rfl
@[simp] theorem setIndex_traceRev (k : Nat) (s : State) : (setIndex k s).traceRev = s.traceRev := rfl
@[simp] theorem setIndex_recordsRev (k : Nat) (s : State) : (setIndex k s).recordsRev = s.recordsRev := rfl
@[simp] theorem setIndex_config (k : Nat) (s : State) : (setIndex k s).config = s.config := rfl
@[simp] theorem setIndex_draws (k : Nat) (s : State) : (setIndex k s).draws = s.draws := rfl

/-! ### The observations -/

@[simp] theorem trace_emit (es : List Event) (s : State) : (emit es s).trace = s.trace ++ es := by
  simp [State.trace, List.reverseAux_eq]

theorem trace_eq_of_traceRev_eq {s t : State} (h : t.traceRev = s.traceRev) : t.trace = s.trace :=
  congrArg List.reverse h

@[simp] theorem emit_emit (es fs : List Event) (s : State) : emit fs (emit es s) = emit (es ++ fs) s := by
  simp [emit, List.reverseAux_eq]

@[simp] theorem emit_nil (s : State) : emit [] s = s := rfl

@[simp] theorem records_completeWith (st : Byte) (r : Bool) (s : State) :
    (completeWith st r s).records = s.records ++ [if r then [st, s.rdata] else [st]] := by
  simp [State.records]

end Sys2Proof.Machine
end

