-- ==== Sys2Proof/Laws/Ops.lean ====
section
/-! SUPPORT. One law per shared operation: its net effect, or everything it can do when it answers a next state.
Later proofs cite these and never unfold the operation. -/

namespace Sys2Proof.Machine

/-! ### Sequencing -/

@[simp] theorem andThen_next (s : State) (k : State → Result) : andThen (.next s) k = k s := rfl
@[simp] theorem andThen_fault (f : Fault) (k : State → Result) : andThen (.fault f) k = .fault f := rfl
@[simp] theorem andThen_refused (f : Refusal) (k : State → Result) : andThen (.refused f) k = .refused f := rfl

/-- A sequence that answers a next state passes through one. -/
theorem andThen_eq_next {r : Result} {k : State → Result} {t : State} (h : andThen r k = .next t) :
    ∃ u, r = .next u ∧ k u = .next t := by
  cases r with
  | next u => exact ⟨u, rfl, h⟩
  | fault f => cases h
  | refused f => cases h

theorem andThen_assoc (r : Result) (k l : State → Result) :
    andThen (andThen r k) l = andThen r fun s => andThen (k s) l := by
  cases r <;> rfl

/-! ### The address latch -/

/-- The three events of one shifted bit (R141). -/
def shiftBitEvents (b : Bool) : List Event := [.ser b, .srclk true, .srclk false]

/-- The twenty-four events of one shifted byte (R142). -/
def shiftByteEvents (v : Byte) : List Event :=
  [7, 6, 5, 4, 3, 2, 1, 0].flatMap fun i => shiftBitEvents (v.getLsbD i)

/-- The two bytes of an address, shifted one after the other and latched, make its address trace (R144, R112). -/
theorem addressTrace_eq (a : Word) :
    shiftByteEvents (hi8 a) ++ shiftByteEvents (lo8 a) ++ [.rclk false, .rclk true, .rclk false] =
      addressTrace a := by
  have hh : ∀ i < 8, (hi8 a).getLsbD i = a.getLsbD (8 + i) := by
    intro i hi
    unfold hi8
    rw [BitVec.getLsbD_extractLsb']
    simp [hi]
  have hl : ∀ i < 8, (lo8 a).getLsbD i = a.getLsbD i := by
    intro i hi
    unfold lo8
    rw [BitVec.getLsbD_extractLsb']
    simp [hi]
  simp [shiftByteEvents, shiftBitEvents, addressTrace, hh, hl, -BitVec.getLsbD_eq_getElem]

theorem shiftBit_eq (b : Bool) (s : State) :
    shiftBit b s = emit (shiftBitEvents b) { s with ser := b, srclk := false, sr := shiftIn s.sr b } := rfl

theorem shiftBit_emit (b : Bool) (es : List Event) (s : State) :
    shiftBit b (emit es s) =
      emit (es ++ shiftBitEvents b) { s with ser := b, srclk := false, sr := shiftIn s.sr b } := by
  rw [← emit_emit]
  rfl

theorem shiftBits_eq (v : Byte) (is : List Nat) (es : List Event) (s : State) :
    is.foldl (fun s i => shiftBit (v.getLsbD i) s) (emit es s) =
      emit (es ++ is.flatMap fun i => shiftBitEvents (v.getLsbD i))
        { s with
          ser := is.foldl (fun _ i => v.getLsbD i) s.ser
          srclk := is.foldl (fun _ _ => false) s.srclk
          sr := is.foldl (fun w i => shiftIn w (v.getLsbD i)) s.sr } := by
  induction is generalizing es s with
  | nil => simp
  | cons i is ih =>
    rw [List.foldl_cons, shiftBit_emit, ih]
    simp

theorem shiftIn_getLsbD (v : Word) (b : Bool) (i : Nat) :
    (shiftIn v b).getLsbD i = (decide (i < 16) && if i = 0 then b else v.getLsbD (i - 1)) := by
  unfold shiftIn
  by_cases h : i = 0 <;> by_cases hi : i < 16 <;>
    simp [h, hi, BitVec.getLsbD_setWidth, BitVec.getLsbD_ofBool, -BitVec.getLsbD_eq_getElem]

theorem shiftIn_eight (v : Word) (w : Byte) :
    [7, 6, 5, 4, 3, 2, 1, 0].foldl (fun v i => shiftIn v (w.getLsbD i)) v = v.extractLsb' 0 8 ++ w := by
  apply BitVec.eq_of_getLsbD_eq
  intro i hi
  have : i < 16 := hi
  rw [BitVec.getLsbD_append, BitVec.getLsbD_extractLsb']
  simp only [List.foldl_cons, List.foldl_nil, shiftIn_getLsbD]
  interval_cases i <;> simp

/-- `shift_byte(v)`: `SR <- {SR[7:0], v}` (R142). -/
theorem shiftByte_eq (v : Byte) (s : State) :
    shiftByte v s =
      emit (shiftByteEvents v)
        { s with ser := v.getLsbD 0, srclk := false, sr := s.sr.extractLsb' 0 8 ++ v } := by
  rw [← shiftIn_eight]
  exact shiftBits_eq v _ [] s

theorem latchPulse_eq (s : State) :
    latchPulse s = emit [.rclk false, .rclk true, .rclk false] { s with rclk := false, al := s.sr } := rfl

theorem low_byte_append (v w : Byte) : (BitVec.extractLsb' 0 8 (v ++ w : BitVec 16)) = w := by
  apply BitVec.eq_of_getLsbD_eq
  intro i hi
  rw [BitVec.getLsbD_extractLsb', BitVec.getLsbD_append]
  simp [hi]

theorem word16_hi8_lo8 (a : Word) : word16 (hi8 a) (lo8 a) = a := by
  apply BitVec.eq_of_getLsbD_eq
  intro i hi
  unfold word16 hi8 lo8
  rw [BitVec.getLsbD_append, BitVec.getLsbD_extractLsb', BitVec.getLsbD_extractLsb']
  by_cases h : i < 8
  · simp [h]
  · rw [if_neg h]
    have : i - 8 < 8 := by omega
    have h8 : 8 + (i - 8) = i := by omega
    simp [this, h8]

/-- The state an address set leaves (R144). -/
def afterAddress (a : Word) (s : State) : State :=
  emit (addressTrace a) { s with ser := a.getLsbD 0, srclk := false, rclk := false, sr := a, al := a }

/-- `set_address(a)`: the net effect of R144. -/
theorem setAddress_eq (a : Word) (s : State) : setAddress a s = afterAddress a s := by
  have hser : (lo8 a).getLsbD 0 = a.getLsbD 0 := by
    unfold lo8
    rw [BitVec.getLsbD_extractLsb']
    simp
  have hsr : ((s.sr.extractLsb' 0 8 ++ hi8 a : BitVec 16).extractLsb' 0 8 ++ lo8 a : BitVec 16) = a := by
    rw [low_byte_append]
    exact word16_hi8_lo8 a
  unfold setAddress
  rw [shiftByte_eq, shiftByte_eq, latchPulse_eq]
  simp only [afterAddress, emit, hser, hsr, ← addressTrace_eq, List.reverseAux_eq, List.reverse_append, List.append_assoc]

@[simp] theorem addressTrace_length (a : Word) : (addressTrace a).length = 51 := rfl

/-- Sixteen bits shifted into any stages leave the address in them (R61, R112). -/
theorem addrLines_toNat {a : Word} (h : addrOutOfRange a = false) : (addrLines a).toNat = a.toNat := by
  unfold addrOutOfRange Config.maxRomSize at h
  unfold addrLines
  simp at h
  simp [BitVec.extractLsb'_toNat]
  omega

/-! ### Pins -/

theorem beginWrite_eq (s : State) :
    beginWrite s =
      emit [.ledProg true, .dir .output, .oeN true] { s with ledProg := true, dir := .output, oeN := true } := rfl

@[simp] theorem writeTrace_length (a : Word) (v : Byte) : (writeTrace a v).length = 63 := rfl

@[simp] theorem readTrace_length (a : Word) (v : Byte) : (readTrace a v).length = 59 := rfl

theorem writeTrace_eq (a : Word) (v : Byte) :
    writeTrace a v = addressTrace a ++ driveEvents v ++ [.weN false, .waitUs 1, .weN true, .waitUs 1] := rfl

/-- The state a byte write leaves (R157). -/
def afterWrite (a : Word) (v : Byte) (s : State) : State :=
  emit (writeTrace a v)
    { s with
      ser := a.getLsbD 0
      srclk := false
      rclk := false
      sr := a
      al := a
      dout := v
      weN := true
      tmrWe := 0
      group := s.group ++ [(addrLines a, v)] }

/-- `write_byte(a, v)` in its contract. -/
theorem writeByte_eq (a : Word) (v : Byte) {s : State} (h : pulseInContract s = true) :
    writeByte a v s = .next (afterWrite a v s) := by
  have hp : pulseInContract (drive v (setAddress a s)) = true := by
    rw [setAddress_eq]
    exact h
  unfold writeByte wePulse
  rw [if_pos hp, setAddress_eq]
  simp only [afterAddress, afterWrite, writeTrace_eq, drive, holdWe, memWrite, emit, List.reverseAux_eq, Config.tWeLowUs,
    Config.tWeHighUs, List.reverse_append, List.append_assoc]
  rfl

/-- `write_byte(a, v)` outside its contract stops. -/
theorem writeByte_refused (a : Word) (v : Byte) {s : State} (h : pulseInContract s = false) :
    writeByte a v s = .refused .writePulseOutsideContract := by
  have hp : pulseInContract (drive v (setAddress a s)) = false := by
    rw [setAddress_eq]
    exact h
  unfold writeByte wePulse
  rw [hp]
  rfl

/-- Everything a byte write can do. -/
theorem writeByte_cases {a : Word} {v : Byte} {s t : State} (h : writeByte a v s = .next t) :
    pulseInContract s = true ∧ t = afterWrite a v s := by
  by_cases hp : pulseInContract s = true
  · rw [writeByte_eq a v hp] at h
    exact ⟨hp, by simpa using h.symm⟩
  · rw [writeByte_refused a v (by simpa using hp)] at h
    cases h

/-! ### Reading -/

/-- The eight samples of a read that returns `v` (R152, R158). -/
def sampleEvents (v : Byte) : List Event :=
  [7, 6, 5, 4, 3, 2, 1, 0].map (fun k : Fin 8 => Event.rd k (v.getLsbD k))

theorem readTrace_eq (a : Word) (v : Byte) : readTrace a v = addressTrace a ++ sampleEvents v := rfl

theorem sampled_byte (v : Byte) :
    ([7, 6, 5, 4, 3, 2, 1, 0] : List (Fin 8)).foldl
      (fun (w : Byte) (k : Fin 8) => (w <<< 1) ||| (BitVec.ofBool (v.getLsbD k)).setWidth 8) 0 = v := by
  revert v
  decide

/-- `sample()` under the precondition of `MemRead` returns the stored byte and changes nothing but the trace. -/
theorem sample_eq {s : State} (h : memReadable s = true) :
    sample s = (memRead (addrLines s.al) s, emit (sampleEvents (memRead (addrLines s.al) s)) s) := by
  have step : ∀ (w : Byte) (es : List Event) (k : Fin 8),
      sampleBit (w, emit es s) k =
        ((w <<< 1) ||| (BitVec.ofBool ((memRead (addrLines s.al) s).getLsbD k)).setWidth 8,
          emit (es ++ [.rd k ((memRead (addrLines s.al) s).getLsbD k)]) s) := by
    intro w es k
    have hr : memReadable (emit es s) = true := h
    have hl : pinLevel k (emit es s) = (memRead (addrLines s.al) s).getLsbD k := by
      unfold pinLevel
      rw [if_pos hr]
      rfl
    have ha : afterPin (emit es s) = emit es s := by
      unfold afterPin
      rw [if_pos hr]
    unfold sampleBit
    rw [hl, ha, emit_emit]
  unfold sample
  rw [show ((0 : Byte), s) = (0, emit [] s) from rfl]
  simp only [List.foldl_cons, List.foldl_nil, step]
  refine Prod.ext ?_ rfl
  exact sampled_byte _

/-- Whatever the pins carry, eight samples change nothing but the trace and the draw counter. -/
theorem sample_frame (s : State) :
    (sample s).2 = { s with traceRev := (sample s).2.traceRev, draws := (sample s).2.draws } := by
  have step : ∀ (u : Byte × State) (k : Fin 8),
      u.2 = { s with traceRev := u.2.traceRev, draws := u.2.draws } →
      (sampleBit u k).2 = { s with traceRev := (sampleBit u k).2.traceRev, draws := (sampleBit u k).2.draws } := by
    intro u k hu
    have : (sampleBit u k).2 = { u.2 with
        traceRev := (sampleBit u k).2.traceRev, draws := (sampleBit u k).2.draws } := by
      unfold sampleBit afterPin
      split <;> rfl
    rw [this, hu]
  have all : ∀ (ks : List (Fin 8)) (u : Byte × State),
      u.2 = { s with traceRev := u.2.traceRev, draws := u.2.draws } →
      (ks.foldl sampleBit u).2 =
        { s with traceRev := (ks.foldl sampleBit u).2.traceRev, draws := (ks.foldl sampleBit u).2.draws } := by
    intro ks
    induction ks with
    | nil => exact fun u hu => hu
    | cons k ks ih => exact fun u hu => ih _ (step u k hu)
  exact all _ _ rfl

/-- Whatever the pins carry, the eight samples of a read are those of the byte it returns (R152). -/
theorem sample_trace (s : State) : (sample s).2.trace = s.trace ++ sampleEvents (sample s).1 := by
  have levels : ∀ (b7 b6 b5 b4 b3 b2 b1 b0 : Bool) (v : Byte),
      v = [b7, b6, b5, b4, b3, b2, b1, b0].foldl
        (fun (v : Byte) b => (v <<< 1) ||| (BitVec.ofBool b).setWidth 8) 0 →
      sampleEvents v = [.rd 7 b7, .rd 6 b6, .rd 5 b5, .rd 4 b4, .rd 3 b3, .rd 2 b2, .rd 1 b1, .rd 0 b0] := by
    rintro b7 b6 b5 b4 b3 b2 b1 b0 v rfl
    revert b7 b6 b5 b4 b3 b2 b1 b0
    decide
  have afterPin_trace : ∀ s, (afterPin s).trace = s.trace := by
    intro s
    unfold afterPin
    split <;> rfl
  rw [levels _ _ _ _ _ _ _ _ (sample s).1 rfl]
  unfold sample
  simp only [List.foldl_cons, List.foldl_nil]
  unfold sampleBit
  simp only [trace_emit, afterPin_trace, List.append_assoc, List.cons_append, List.nil_append]

/-! ### The page wait -/

theorem isDataGroup_ne_nil {g : List Pulse} (h : isDataGroup g = true) : g ≠ [] := by
  rintro rfl
  cases h

/-- Every pulse of a data group lies in the page of each other one. -/
theorem isDataGroup_iff {g : List Pulse} :
    isDataGroup g = true ↔
      1 ≤ g.length ∧ g.length ≤ 64 ∧ ∀ p ∈ g, ∀ q ∈ g, page p.1 = page q.1 := by
  cases g with
  | nil => simp [isDataGroup]
  | cons p g =>
    simp only [isDataGroup, Config.pageSize, Bool.and_eq_true, List.all_eq_true, beq_iff_eq]
    constructor
    · rintro ⟨h1, h2⟩
      refine ⟨by simp, of_decide_eq_true h1, ?_⟩
      have h3 : ∀ r ∈ p :: g, page r.1 = page p.1 := by
        intro r hr
        rcases List.mem_cons.mp hr with rfl | hr
        · rfl
        · exact h2 r hr
      exact fun r hr q hq => (h3 r hr).trans (h3 q hq).symm
    · rintro ⟨-, h1, h2⟩
      exact ⟨decide_eq_true h1, fun q hq => h2 q (by simp [hq]) p (by simp)⟩

/-- A group is part of a table exactly when deleting and reordering elements of the table makes it (R75 case 5). -/
theorem isPartOf_iff {g table : List Pulse} : isPartOf g table = true ↔ ∃ l : List Pulse, l.Sublist table ∧ l.Perm g := by
  unfold isPartOf
  simp only [List.all_eq_true, decide_eq_true_eq]
  rw [← List.subperm_ext_iff]
  constructor
  · rintro ⟨l, hp, hs⟩
    exact ⟨l, hs, hp⟩
  · rintro ⟨l, hs, hp⟩
    exact ⟨l, hp, hs⟩

/-- The state at the end of a page wait, before the commit (R170). -/
def pageWaited (s : State) : State := emit [.waitPage] { s with tmrPage := 0 }

@[simp] theorem pageWaited_group (s : State) : (pageWaited s).group = s.group := rfl
@[simp] theorem pageWaited_mem (s : State) : (pageWaited s).mem = s.mem := rfl
@[simp] theorem pageWaited_sdp (s : State) : (pageWaited s).sdp = s.sdp := rfl
@[simp] theorem pageWaited_config (s : State) : (pageWaited s).config = s.config := rfl
@[simp] theorem pageWaited_draws (s : State) : (pageWaited s).draws = s.draws := rfl

/-- A page wait is its event and the commit (R170). -/
theorem waitPage_eq (s : State) : waitPage s = commitGroup (pageWaited s) := rfl

/-- Everything a commit can do (R75 to R81): it empties the group and touches nothing but `MEM`, `SDP` and, for a
defective command, the draw counter. -/
theorem commitGroup_cases {s t : State} (h : commitGroup s = .next t) :
    t = { s with mem := t.mem, sdp := t.sdp, draws := t.draws, group := [] } ∧
      ((classifyGroup s.group = .empty ∧ t.mem = s.mem ∧ t.sdp = s.sdp ∧ t.draws = s.draws) ∨
       (classifyGroup s.group = .enable ∧ t.mem = storeSequence 0xA0 s ∧ t.sdp = true ∧ t.draws = s.draws) ∨
       (classifyGroup s.group = .disable ∧ t.mem = storeSequence 0x20 s ∧ t.sdp = false ∧ t.draws = s.draws) ∨
       (classifyGroup s.group = .data ∧ t.mem = (if s.sdp then s.mem else storeGroup s.group s.mem) ∧
         t.sdp = s.sdp ∧ t.draws = s.draws) ∨
       (classifyGroup s.group = .defective ∧ t.mem = (storeAnyGroup s.group s).mem ∧ t.sdp = s.sdp ∧
         t.draws = s.draws + s.group.length)) := by
  unfold commitGroup at h
  split at h
  all_goals first
    | cases h
      done
    | (injection h with h
       subst h)
  · exact ⟨rfl, by simp_all⟩
  · exact ⟨rfl, by simp_all⟩
  · exact ⟨rfl, by simp_all⟩
  · exact ⟨rfl, by simp_all⟩
  · rw [storeAnyGroup_eq]
    exact ⟨rfl, by simp_all⟩

theorem commitGroup_enable {s : State} (h : classifyGroup s.group = .enable) :
    commitGroup s = .next { s with mem := storeSequence 0xA0 s, sdp := true, group := [] } := by
  unfold commitGroup
  rw [h]

theorem commitGroup_disable {s : State} (h : classifyGroup s.group = .disable) :
    commitGroup s = .next { s with mem := storeSequence 0x20 s, sdp := false, group := [] } := by
  unfold commitGroup
  rw [h]

theorem commitGroup_data {s : State} (h : classifyGroup s.group = .data) :
    commitGroup s = .next { s with mem := if s.sdp then s.mem else storeGroup s.group s.mem, group := [] } := by
  unfold commitGroup
  rw [h]

theorem commitGroup_defective {s : State} (h : classifyGroup s.group = .defective) :
    commitGroup s = .next { storeAnyGroup s.group s with group := [] } := by
  unfold commitGroup
  rw [h]

theorem commitGroup_other {s : State} (h : classifyGroup s.group = .other) :
    commitGroup s = .refused .unrecognisedGroup := by
  unfold commitGroup
  rw [h]

/-- A commit stops only on a group with no meaning (R81). -/
theorem commitGroup_next {s : State} (h : classifyGroup s.group ≠ .other) : ∃ t, commitGroup s = .next t := by
  unfold commitGroup
  split
  all_goals first
    | exact ⟨_, rfl⟩
    | contradiction

theorem commitGroup_wf {s t : State} (h : commitGroup s = .next t) (hs : s.mem.wf) : t.mem.wf := by
  obtain ⟨-, h | h | h | h | h⟩ := commitGroup_cases h
  · rw [h.2.1]; exact hs
  · rw [h.2.1]; exact wf_storeSequence _ hs
  · rw [h.2.1]; exact wf_storeSequence _ hs
  · rw [h.2.1]
    split
    · exact hs
    · exact wf_storeGroup _ hs
  · rw [h.2.1]; exact wf_storeAnyGroup _ hs

theorem classifyGroup_nil : classifyGroup [] = .empty := rfl

/-- The commit of an empty group changes nothing (R75 case 1). -/
theorem commitGroup_nil {s : State} (h : s.group = []) : commitGroup s = .next s := by
  cases s
  simp only at h
  subst h
  rfl

theorem waitPage_nil {s : State} (h : s.group = []) :
    waitPage s = .next (pageWaited s) := by
  rw [waitPage_eq]
  exact commitGroup_nil h

/-- `end_write()` after its page wait (R183). -/
def closeBracket (s : State) : State :=
  emit [.oeN false, .dir .input, .ledProg false] { s with oeN := false, dir := .input, ledProg := false }

theorem endWrite_eq (s : State) : endWrite s = andThen (waitPage s) fun s => .next (closeBracket s) := rfl

end Sys2Proof.Machine
end

