-- ==== Sys2Proof/Laws/Decode.lean ====
section
/-! SUPPORT. The laws of the decoder's and the encoder's parts: the operation map read both ways, the two halves of a
16-bit operand, and the payload. -/

namespace Sys2Proof

@[simp] theorem decodeCmd_cmd (o : Op) : decodeCmd o.cmd = some o := by
  cases o <;> decide

/-- The operation map is unambiguous: a `CMD` names at most one operation. -/
theorem cmd_of_decodeCmd {c : Byte} {o : Op} (h : decodeCmd c = some o) : c = o.cmd := by
  have := List.find?_some h
  exact (by simpa using this : o.cmd = c).symm

theorem decodeCmd_eq_some_iff {c : Byte} {o : Op} : decodeCmd c = some o ↔ c = o.cmd :=
  ⟨cmd_of_decodeCmd, fun h => h ▸ decodeCmd_cmd o⟩

/-- The reserved values of R120 are exactly those no operation has. -/
theorem decodeCmd_eq_none_iff {c : Byte} : decodeCmd c = none ↔ c = 0x00 ∨ 0x0C ≤ c.toNat := by
  revert c
  decide

theorem hi8_word16 (hi lo : Byte) : hi8 (word16 hi lo) = hi := by
  apply BitVec.eq_of_getLsbD_eq
  intro i h
  unfold hi8 word16
  rw [BitVec.getLsbD_extractLsb', BitVec.getLsbD_append]
  simp [h]

theorem lo8_word16 (hi lo : Byte) : lo8 (word16 hi lo) = lo := by
  apply BitVec.eq_of_getLsbD_eq
  intro i h
  unfold lo8 word16
  rw [BitVec.getLsbD_extractLsb', BitVec.getLsbD_append]
  simp [h]

@[simp] theorem word16_halves (a : Word) : word16 (hi8 a) (lo8 a) = a := Machine.word16_hi8_lo8 a

/-- A 16-bit operand as a number: high byte first (R105). -/
theorem word16_toNat (hi lo : Byte) : (word16 hi lo).toNat = 256 * hi.toNat + lo.toNat := by
  unfold word16
  rw [BitVec.toNat_append, Nat.shiftLeft_eq, Nat.mul_comm, ← Nat.two_pow_add_eq_or_of_lt lo.isLt]

/-- A payload is taken whole or not at all. -/
theorem takeExactly_eq_some_iff {n : Nat} {bs p : List Byte} :
    takeExactly n bs = some p ↔ p.length = n ∧ bs = p ++ bs.drop n := by
  induction n generalizing bs p with
  | zero =>
    rw [List.length_eq_zero_iff]
    constructor
    · intro h
      injection h with h
      exact ⟨h.symm, by simp [← h]⟩
    · rintro ⟨rfl, -⟩
      rfl
  | succ n ih =>
    cases bs with
    | nil => cases p <;> simp [takeExactly]
    | cons b bs =>
      simp only [takeExactly, Option.map_eq_some_iff, List.drop_succ_cons]
      constructor
      · rintro ⟨q, hq, rfl⟩
        obtain ⟨h1, h2⟩ := ih.mp hq
        exact ⟨by simp [h1], by rw [List.cons_append, ← h2]⟩
      · rintro ⟨h1, h2⟩
        cases p with
        | nil => simp at h1
        | cons c p =>
          rw [List.cons_append, List.cons.injEq] at h2
          exact ⟨p, ih.mpr ⟨by simpa using h1, h2.2⟩, by rw [h2.1]⟩

theorem takeExactly_append (p rest : List Byte) : takeExactly p.length (p ++ rest) = some p :=
  takeExactly_eq_some_iff.mpr ⟨rfl, by simp⟩

end Sys2Proof
end

