-- ==== Sys2Proof/Laws/Loops.lean ====
section
/-! SUPPORT. What the two loops of the controller can do: the paced write run (R176) and the table walk (R202, R203).
Each law says it once; later proofs cite it and never unfold the loop. -/

namespace Sys2Proof.Machine

/-! ### The fields the operations inside a bracket write -/

/-- `t` differs from `s` at most in the fields that byte writes, page waits and the loop registers touch. -/
def WriteFrame (s t : State) : Prop :=
  t = { s with
    cur := t.cur, rem := t.rem, idx := t.idx, sr := t.sr, al := t.al, ser := t.ser, srclk := t.srclk,
    rclk := t.rclk, dout := t.dout, weN := t.weN, tmrWe := t.tmrWe, tmrPage := t.tmrPage, mem := t.mem,
    sdp := t.sdp, group := t.group, traceRev := t.traceRev, draws := t.draws }

theorem WriteFrame.refl (s : State) : WriteFrame s s := rfl

theorem WriteFrame.trans {s t u : State} (h : WriteFrame s t) (k : WriteFrame t u) : WriteFrame s u := by
  unfold WriteFrame at *
  rw [h] at k
  exact k

/-- The pins a write run leaves idle: write enable high, both clocks low, both timers idle, a canonical array. -/
structure PinsIdle (s : State) : Prop where
  weHigh : s.weN = true
  rclkLow : s.rclk = false
  srclkLow : s.srclk = false
  tmrWeIdle : s.tmrWe = 0
  tmrPageIdle : s.tmrPage = 0
  memWf : s.mem.wf

/-- A byte write: its frame, and the pins it leaves. -/
theorem afterWrite_frame (a : Word) (v : Byte) (s : State) : WriteFrame s (afterWrite a v s) := rfl

theorem afterWrite_idle (a : Word) (v : Byte) {s : State} (h : PinsIdle s) : PinsIdle (afterWrite a v s) :=
  ⟨rfl, rfl, rfl, rfl, h.tmrPageIdle, h.memWf⟩

/-- A page wait: its event, an empty group, its frame. -/
theorem waitPage_cases {s t : State} (h : waitPage s = .next t) :
    t = { s with
      tmrPage := 0, mem := t.mem, sdp := t.sdp, draws := t.draws, group := []
      traceRev := .waitPage :: s.traceRev } := by
  rw [waitPage_eq] at h
  exact (commitGroup_cases h).1

theorem waitPage_frame {s t : State} (h : waitPage s = .next t) : WriteFrame s t := by
  rw [waitPage_cases h]
  rfl

theorem waitPage_idle {s t : State} (h : waitPage s = .next t) (hs : PinsIdle s) : PinsIdle t := by
  have hm : t.mem.wf := by
    rw [waitPage_eq] at h
    exact commitGroup_wf h hs.memWf
  rw [waitPage_cases h]
  exact ⟨hs.weHigh, hs.rclkLow, hs.srclkLow, hs.tmrWeIdle, rfl, hm⟩

theorem paceWait_cases {i : Nat} {s t : State} (h : paceWait i s = .next t) :
    (pace s.config.paceRule s.cur i = true ∧ waitPage s = .next t) ∨
      (pace s.config.paceRule s.cur i = false ∧ t = s) := by
  unfold paceWait at h
  split at h
  · next hp => exact .inl ⟨hp, h⟩
  · next hp =>
    injection h with h
    exact .inr ⟨by simpa using hp, h.symm⟩

/-- One turn of the loop of R176, taken apart. -/
theorem writeRun_cons {v : Byte} {rest : List Byte} {i : Nat} {s t : State}
    (h : writeRun (v :: rest) i s = .next t) :
    ∃ u, pulseInContract s = true ∧
      paceWait (i + 1) (advanceCursor (afterWrite s.cur v s)) = .next u ∧ writeRun rest (i + 1) u = .next t := by
  unfold writeRun at h
  obtain ⟨w, hw, h⟩ := andThen_eq_next h
  obtain ⟨hc, rfl⟩ := writeByte_cases hw
  obtain ⟨u, hu, h⟩ := andThen_eq_next h
  exact ⟨u, hc, hu, h⟩

/-- A property that byte writes, cursor steps and page waits keep is kept by a write run. -/
theorem writeRun_keeps {P : State → Prop} {rest : List Byte} {i : Nat} {s t : State}
    (hw : ∀ (a : Word) (v : Byte) (u : State), P u → P (advanceCursor (afterWrite a v u)))
    (hp : ∀ u w : State, P u → waitPage u = .next w → P w)
    (hs : P s) (h : writeRun rest i s = .next t) : P t := by
  induction rest generalizing i s with
  | nil =>
    injection h with h
    exact h ▸ hs
  | cons v rest ih =>
    obtain ⟨u, -, hu, h⟩ := writeRun_cons h
    refine ih ?_ h
    rcases paceWait_cases hu with ⟨-, hu⟩ | ⟨-, rfl⟩
    · exact hp _ _ (hw _ _ _ hs) hu
    · exact hw _ _ _ hs

theorem writeRun_frame {rest : List Byte} {i : Nat} {s t : State} (h : writeRun rest i s = .next t) :
    WriteFrame s t :=
  writeRun_keeps (P := WriteFrame s) (fun _ _ _ hu => hu.trans rfl) (fun _ _ hu hw => hu.trans (waitPage_frame hw))
    (.refl s) h

theorem writeRun_idle {rest : List Byte} {i : Nat} {s t : State} (h : writeRun rest i s = .next t)
    (hs : PinsIdle s) : PinsIdle t :=
  writeRun_keeps (P := PinsIdle)
    (fun a v _ hu => let k := afterWrite_idle a v hu
      ⟨k.weHigh, k.rclkLow, k.srclkLow, k.tmrWeIdle, k.tmrPageIdle, k.memWf⟩)
    (fun _ _ hu hw => waitPage_idle hw hu) hs h

/-- One turn of the table walk, taken apart. -/
theorem writeTable_cons {e : Word × Byte} {rest : List (Word × Byte)} {k : Nat} {s t : State}
    (h : writeTable (e :: rest) k s = .next t) :
    pulseInContract s = true ∧
      writeTable rest (k + 1) (afterWrite e.1 e.2 (setIndex k s)) = .next t := by
  unfold writeTable at h
  obtain ⟨w, hw, h⟩ := andThen_eq_next h
  obtain ⟨hc, rfl⟩ := writeByte_cases hw
  exact ⟨hc, h⟩

/-- A table walk in contract completes: no page wait is in it, so nothing can stop it. -/
theorem writeTable_eq (e : Word × Byte) (rest : List (Word × Byte)) (k : Nat) {s : State}
    (h : pulseInContract s = true) :
    writeTable (e :: rest) k s =
      writeTable rest (k + 1) (afterWrite e.1 e.2 (setIndex k s)) := by
  rw [writeTable, writeByte_eq e.1 e.2 (s := setIndex k s) h, andThen_next]

/-- What a table walk that ends with the entry `last` leaves: every pair in `GROUP`, the pins of the last write, and the
index of the last entry in `IDX` (R202, R203). -/
def afterTable (table : List (Word × Byte)) (last : Word × Byte) (k : Nat) (s : State) : State :=
  emit (sequenceTrace (table ++ [last]))
    { s with
      idx := BitVec.ofNat 3 (k + table.length)
      ser := last.1.getLsbD 0
      srclk := false
      rclk := false
      sr := last.1
      al := last.1
      dout := last.2
      weN := true
      tmrWe := 0
      group := s.group ++ (table ++ [last]).map pulseOf }

theorem afterTable_cons (e : Word × Byte) (table : List (Word × Byte)) (last : Word × Byte) (k : Nat) (s : State) :
    afterTable table last (k + 1) (afterWrite e.1 e.2 (setIndex k s)) = afterTable (e :: table) last k s := by
  have hk : k + 1 + table.length = k + (table.length + 1) := by omega
  simp [afterTable, afterWrite, setIndex, emit, sequenceTrace, List.reverseAux_eq, pulseOf, hk]

/-- A table walk in contract completes, whatever it writes. -/
theorem writeTable_run (table : List (Word × Byte)) (last : Word × Byte) (k : Nat) {s : State}
    (h : pulseInContract s = true) :
    writeTable (table ++ [last]) k s = .next (afterTable table last k s) := by
  induction table generalizing k s with
  | nil =>
    rw [List.nil_append, writeTable_eq last [] k h, writeTable]
    simp [afterTable, afterWrite, setIndex, emit, sequenceTrace, pulseOf]
  | cons e table ih =>
    have hk : pulseInContract (afterWrite e.1 e.2 (setIndex k s)) = true := by
      unfold pulseInContract at *
      simp_all [afterWrite]
    rw [List.cons_append, writeTable_eq e _ k h, ih (k + 1) hk, afterTable_cons]

theorem writeTable_keeps {P : State → Prop} {table : List (Word × Byte)} {k : Nat} {s t : State}
    (hw : ∀ (a : Word) (v : Byte) (j : Nat) (u : State), P u → P (afterWrite a v (setIndex j u)))
    (hs : P s) (h : writeTable table k s = .next t) : P t := by
  induction table generalizing k s with
  | nil =>
    injection h with h
    exact h ▸ hs
  | cons e rest ih => exact ih (hw _ _ _ _ hs) (writeTable_cons h).2

theorem writeTable_frame {table : List (Word × Byte)} {k : Nat} {s t : State}
    (h : writeTable table k s = .next t) : WriteFrame s t :=
  writeTable_keeps (P := WriteFrame s) (fun _ _ _ _ hu => hu.trans rfl) (.refl s) h

theorem writeTable_idle {table : List (Word × Byte)} {k : Nat} {s t : State}
    (h : writeTable table k s = .next t) (hs : PinsIdle s) : PinsIdle t :=
  writeTable_keeps (P := PinsIdle) (fun a v _ _ hu =>
    afterWrite_idle a v ⟨hu.weHigh, hu.rclkLow, hu.srclkLow, hu.tmrWeIdle, hu.tmrPageIdle, hu.memWf⟩) hs h

/-- An open bracket keeps accepting pulses: a byte write leaves its own precondition standing. -/
theorem afterWrite_inContract {a : Word} {v : Byte} {s : State} (h : pulseInContract s = true) :
    pulseInContract (afterWrite a v s) = true := by
  unfold pulseInContract at *
  simp_all [afterWrite]

/-- The end of a bracket: the page wait, then the pins back to idle (R183). -/
theorem endWrite_cases {s t : State} (h : endWrite s = .next t) : ∃ u, waitPage s = .next u ∧ t = closeBracket u := by
  rw [endWrite_eq] at h
  obtain ⟨u, hu, h⟩ := andThen_eq_next h
  injection h with h
  exact ⟨u, hu, h.symm⟩

/-- A composite write, taken apart: the loop in an open bracket, the closing wait, the closed bracket with `CUR` and
`REM` forgotten. -/
theorem pacedWrite_cases {a : Word} {p : List Byte} {s t : State} (h : pacedWrite a p s = .next t) :
    ∃ u w, writeRun p 0 (startCursor a (BitVec.ofNat 16 p.length) (beginWrite s)) = .next u ∧
      waitPage u = .next w ∧ t = forgetCursor (closeBracket w) := by
  unfold pacedWrite at h
  obtain ⟨u, hu, h⟩ := andThen_eq_next h
  obtain ⟨x, hx, h⟩ := andThen_eq_next h
  obtain ⟨w, hw, rfl⟩ := endWrite_cases hx
  injection h with h
  exact ⟨u, w, hu, hw, h.symm⟩

/-- An SDP operation, taken apart. -/
theorem issueSequence_cases {table : List (Word × Byte)} {s t : State} (h : issueSequence table s = .next t) :
    ∃ u w, writeTable table 0 (beginWrite s) = .next u ∧ waitPage u = .next w ∧
      t = forgetIndex (closeBracket w) := by
  unfold issueSequence at h
  obtain ⟨u, hu, h⟩ := andThen_eq_next h
  obtain ⟨x, hx, h⟩ := andThen_eq_next h
  obtain ⟨w, hw, rfl⟩ := endWrite_cases hx
  injection h with h
  exact ⟨u, w, hu, hw, h.symm⟩

end Sys2Proof.Machine
end

