-- ==== Sys2Proof/Laws/Exec.lean ====
section
/-! SUPPORT. The meaning of each request once its refusal tests have passed, its tests in the form the claims use, and the
write group's cases in the words of R75. -/

namespace Sys2Proof.Machine

theorem addrOutOfRange_eq (a : Word) : addrOutOfRange a = decide (0x7FFF < a.toNat) := by
  unfold addrOutOfRange Config.maxRomSize
  congr 1

theorem addrOutOfRange_of_le {a : Word} (h : a.toNat ≤ 0x7FFF) : addrOutOfRange a = false := by
  rw [addrOutOfRange_eq]
  exact decide_eq_false (by omega)

theorem spanOutOfRange_of_le {a : Word} {n : Nat} (h : a.toNat + n ≤ 0x8000) : spanOutOfRange a n = false :=
  decide_eq_false (by unfold Config.maxRomSize; omega)

theorem eraseOutOfRange_of_le {n : Word} (h : n.toNat ≤ 0x8000) : eraseOutOfRange n = false :=
  decide_eq_false (by unfold Config.maxRomSize; omega)

theorem wrOpen_of_input {s : State} (h : s.dir = .input) : wrOpen s = false := by
  unfold wrOpen
  rw [h]
  rfl

theorem wrOpen_of_output {s : State} (h : s.dir = .output) : wrOpen s = true := by
  unfold wrOpen
  rw [h]
  rfl

theorem pulseInContract_of_writable {s : State} (h : s.Writable) : pulseInContract s = true := by
  unfold pulseInContract
  rw [h.dirOut, h.oeHigh, h.weHigh]
  rfl

theorem writable_of_pulseInContract {s : State} (h : pulseInContract s = true) : s.Writable := by
  unfold pulseInContract at h
  simp only [Bool.and_eq_true, beq_iff_eq] at h
  exact ⟨h.2, h.1.2, h.1.1⟩

theorem memReadable_of_readable {s : State} (h : s.Readable) : memReadable s = true := by
  unfold memReadable
  rw [h.oeLow, h.weHigh, h.dirIn, h.noGroup]
  rfl

/-! ### Meanings past their tests -/

theorem exec_setaddr {a : Word} (ha : a.toNat ≤ 0x7FFF) (s : State) :
    exec (.setaddr a) s = .next (completeWith statusOk false (setAddress a (loadAddr a (accept .setaddr s)))) := by
  simp only [exec, execSetaddr, addrOutOfRange_of_le ha, Bool.false_eq_true, if_false]

theorem exec_rdbyte {a : Word} (ha : a.toNat ≤ 0x7FFF) {s : State} (hd : s.dir = .input) :
    exec (.rdbyte a) s =
      .next (completeWith statusOk true
        (setRdata (readByte a (loadAddr a (accept .rdbyte s))).1 (readByte a (loadAddr a (accept .rdbyte s))).2)) := by
  simp only [exec, execRdbyte, addrOutOfRange_of_le ha, wrOpen_of_input hd, Bool.false_eq_true, if_false]

theorem exec_wrbyte {a : Word} (ha : a.toNat ≤ 0x7FFF) (v : Byte) {s : State} (hd : s.dir = .output) :
    exec (.wrbyte a v) s =
      andThen (writeByte a v (loadWdata v (loadAddr a (accept .wrbyte s)))) fun s =>
        .next (completeWith statusOk false s) := by
  simp only [exec, execWrbyte, addrOutOfRange_of_le ha, wrOpen_of_output hd, Bool.not_true, Bool.false_eq_true,
    if_false]

theorem exec_beginwr {s : State} (hd : s.dir = .input) :
    exec .beginwr s = .next (completeWith statusOk false (beginWrite (accept .beginwr s))) := by
  simp only [exec, execBeginwr, wrOpen_of_input hd, Bool.false_eq_true, if_false]

theorem exec_endwr {s : State} (hd : s.dir = .output) :
    exec .endwr s = andThen (endWrite (accept .endwr s)) fun s => .next (completeWith statusOk false s) := by
  simp only [exec, execEndwr, wrOpen_of_output hd, Bool.not_true, Bool.false_eq_true, if_false]

theorem exec_bulkwr {a : Word} {p : List Byte} (ha : a.toNat ≤ 0x7FFF) (hn : a.toNat + p.length ≤ 0x8000)
    {s : State} (hd : s.dir = .input) :
    exec (.bulkwr a p) s =
      andThen (pacedWrite a p (loadLen (BitVec.ofNat 16 p.length) (loadAddr a (accept .bulkwr s)))) fun s =>
        .next (completeWith statusOk false s) := by
  simp only [exec, execBulkwr, addrOutOfRange_of_le ha, spanOutOfRange_of_le hn, wrOpen_of_input hd,
    Bool.false_eq_true, if_false]

theorem exec_erase {n : Word} (hn : n.toNat ≤ 0x8000) {s : State} (hd : s.dir = .input) :
    exec (.erase n) s =
      andThen (pacedWrite 0 (List.replicate n.toNat 0xFF) (loadLen n (accept .erase s))) fun s =>
        .next (completeWith statusOk false s) := by
  simp only [exec, execErase, eraseOutOfRange_of_le hn, wrOpen_of_input hd, Bool.false_eq_true, if_false]

theorem exec_sdpen {s : State} (hd : s.dir = .input) :
    exec .sdpen s =
      andThen (issueSequence sdpEnTable (accept .sdpen s)) fun s => .next (completeWith statusOk false s) := by
  simp only [exec, execSdpen, wrOpen_of_input hd, Bool.false_eq_true, if_false]

theorem exec_sdpdis {s : State} (hd : s.dir = .input) :
    exec .sdpdis s =
      andThen (issueSequence sdpDisTable (accept .sdpdis s)) fun s => .next (completeWith statusOk false s) := by
  simp only [exec, execSdpdis, wrOpen_of_input hd, Bool.false_eq_true, if_false]

/-- `ENDWR` is its bracket's commit and the closed bracket. -/
theorem exec_endwr_of_commit {s t : State} (hd : s.dir = .output)
    (h : commitGroup (pageWaited (accept .endwr s)) = .next t) :
    exec .endwr s = .next (completeWith statusOk false (closeBracket t)) := by
  rw [exec_endwr hd, endWrite_eq, waitPage_eq, h]
  rfl

/-! ### What an executed request passes through

A request that no cause of R223 to R225 refuses and that answers a next state. -/

theorem readByte_frame (a : Word) (s : State) :
    (readByte a s).2 = { s with
      ser := a.getLsbD 0, srclk := false, rclk := false, sr := a, al := a
      traceRev := (readByte a s).2.traceRev, draws := (readByte a s).2.draws } := by
  unfold readByte
  rw [sample_frame, setAddress_eq]
  rfl

theorem refusalStatus_setaddr {a : Word} {d : Dir} (h : refusalStatus (.setaddr a) d = none) : a.toNat ≤ 0x7FFF := by
  simpa [refusalStatus, ite_eq_iff] using h

theorem refusalStatus_rdbyte {a : Word} {d : Dir} (h : refusalStatus (.rdbyte a) d = none) :
    a.toNat ≤ 0x7FFF ∧ d = .input := by
  simpa [refusalStatus, ite_eq_iff] using h

theorem refusalStatus_wrbyte {a : Word} {v : Byte} {d : Dir} (h : refusalStatus (.wrbyte a v) d = none) :
    a.toNat ≤ 0x7FFF ∧ d = .output := by
  simpa [refusalStatus, ite_eq_iff] using h

theorem refusalStatus_beginwr {d : Dir} (h : refusalStatus .beginwr d = none) : d = .input := by
  simpa [refusalStatus, ite_eq_iff] using h

theorem refusalStatus_endwr {d : Dir} (h : refusalStatus .endwr d = none) : d = .output := by
  simpa [refusalStatus, ite_eq_iff] using h

theorem refusalStatus_bulkwr {a : Word} {p : List Byte} {d : Dir} (h : refusalStatus (.bulkwr a p) d = none) :
    a.toNat ≤ 0x7FFF ∧ a.toNat + p.length ≤ 0x8000 ∧ d = .input := by
  simpa [refusalStatus, ite_eq_iff] using h

theorem refusalStatus_erase {n : Word} {d : Dir} (h : refusalStatus (.erase n) d = none) :
    n.toNat ≤ 0x8000 ∧ d = .input := by
  simpa [refusalStatus, ite_eq_iff] using h

theorem refusalStatus_sdpen {d : Dir} (h : refusalStatus .sdpen d = none) : d = .input := by
  simpa [refusalStatus, ite_eq_iff] using h

theorem refusalStatus_sdpdis {d : Dir} (h : refusalStatus .sdpdis d = none) : d = .input := by
  simpa [refusalStatus, ite_eq_iff] using h

theorem exec_wrbyte_cases {a : Word} {v : Byte} {s t : State} (ha : a.toNat ≤ 0x7FFF) (hd : s.dir = .output)
    (h : exec (.wrbyte a v) s = .next t) :
    s.Writable ∧
      t = completeWith statusOk false (afterWrite a v (loadWdata v (loadAddr a (accept .wrbyte s)))) := by
  rw [exec_wrbyte ha v hd] at h
  obtain ⟨u, hu, h⟩ := andThen_eq_next h
  obtain ⟨hc, rfl⟩ := writeByte_cases hu
  injection h with h
  exact ⟨writable_of_pulseInContract (s := s) (by exact hc), h.symm⟩

theorem exec_endwr_cases {s t : State} (hd : s.dir = .output) (h : exec .endwr s = .next t) :
    ∃ w, waitPage (accept .endwr s) = .next w ∧ t = completeWith statusOk false (closeBracket w) := by
  rw [exec_endwr hd] at h
  obtain ⟨u, hu, h⟩ := andThen_eq_next h
  obtain ⟨w, hw, rfl⟩ := endWrite_cases hu
  injection h with h
  exact ⟨w, hw, h.symm⟩

theorem exec_bulkwr_cases {a : Word} {p : List Byte} {s t : State} (ha : a.toNat ≤ 0x7FFF)
    (hn : a.toNat + p.length ≤ 0x8000) (hd : s.dir = .input) (h : exec (.bulkwr a p) s = .next t) :
    ∃ u w, writeRun p 0 (startCursor a (BitVec.ofNat 16 p.length)
        (beginWrite (loadLen (BitVec.ofNat 16 p.length) (loadAddr a (accept .bulkwr s))))) = .next u ∧
      waitPage u = .next w ∧ t = completeWith statusOk false (forgetCursor (closeBracket w)) := by
  rw [exec_bulkwr ha hn hd] at h
  obtain ⟨x, hx, h⟩ := andThen_eq_next h
  obtain ⟨u, w, hu, hw, rfl⟩ := pacedWrite_cases hx
  injection h with h
  exact ⟨u, w, hu, hw, h.symm⟩

theorem exec_erase_cases {n : Word} {s t : State} (hn : n.toNat ≤ 0x8000) (hd : s.dir = .input)
    (h : exec (.erase n) s = .next t) :
    ∃ u w, writeRun (List.replicate n.toNat 0xFF) 0
        (startCursor 0 (BitVec.ofNat 16 (List.replicate n.toNat (0xFF : Byte)).length)
          (beginWrite (loadLen n (accept .erase s)))) = .next u ∧
      waitPage u = .next w ∧ t = completeWith statusOk false (forgetCursor (closeBracket w)) := by
  rw [exec_erase hn hd] at h
  obtain ⟨x, hx, h⟩ := andThen_eq_next h
  obtain ⟨u, w, hu, hw, rfl⟩ := pacedWrite_cases hx
  injection h with h
  exact ⟨u, w, hu, hw, h.symm⟩

theorem exec_sdpen_cases {s t : State} (hd : s.dir = .input) (h : exec .sdpen s = .next t) :
    ∃ u w, writeTable sdpEnTable 0 (beginWrite (accept .sdpen s)) = .next u ∧ waitPage u = .next w ∧
      t = completeWith statusOk false (forgetIndex (closeBracket w)) := by
  rw [exec_sdpen hd] at h
  obtain ⟨x, hx, h⟩ := andThen_eq_next h
  obtain ⟨u, w, hu, hw, rfl⟩ := issueSequence_cases hx
  injection h with h
  exact ⟨u, w, hu, hw, h.symm⟩

theorem exec_sdpdis_cases {s t : State} (hd : s.dir = .input) (h : exec .sdpdis s = .next t) :
    ∃ u w, writeTable sdpDisTable 0 (beginWrite (accept .sdpdis s)) = .next u ∧ waitPage u = .next w ∧
      t = completeWith statusOk false (forgetIndex (closeBracket w)) := by
  rw [exec_sdpdis hd] at h
  obtain ⟨x, hx, h⟩ := andThen_eq_next h
  obtain ⟨u, w, hu, hw, rfl⟩ := issueSequence_cases hx
  injection h with h
  exact ⟨u, w, hu, hw, h.symm⟩

/-- Everything an executed request can do: the state it answers, for each operation. -/
inductive Executed : Instr → State → State → Prop
  | setaddr {a : Word} {s : State} (ha : a.toNat ≤ 0x7FFF) :
      Executed (.setaddr a) s (completeWith statusOk false (afterAddress a (loadAddr a (accept .setaddr s))))
  | rdbyte {a : Word} {s : State} (ha : a.toNat ≤ 0x7FFF) (hd : s.dir = .input) (v : Byte) (es : List Event) (n : Nat) :
      Executed (.rdbyte a) s (completeWith statusOk true
        (setRdata v { afterAddress a (loadAddr a (accept .rdbyte s)) with traceRev := es, draws := n }))
  | wrbyte {a : Word} {v : Byte} {s : State} (ha : a.toNat ≤ 0x7FFF) (hs : s.Writable) :
      Executed (.wrbyte a v) s
        (completeWith statusOk false (afterWrite a v (loadWdata v (loadAddr a (accept .wrbyte s)))))
  | beginrd {s : State} : Executed .beginrd s (completeWith statusOk false (setLedRead true (accept .beginrd s)))
  | endrd {s : State} : Executed .endrd s (completeWith statusOk false (setLedRead false (accept .endrd s)))
  | beginwr {s : State} (hd : s.dir = .input) :
      Executed .beginwr s (completeWith statusOk false (beginWrite (accept .beginwr s)))
  | endwr {s w : State} (hd : s.dir = .output) (hw : waitPage (accept .endwr s) = .next w) :
      Executed .endwr s (completeWith statusOk false (closeBracket w))
  | bulkwr {a : Word} {p : List Byte} {s u w : State} (ha : a.toNat ≤ 0x7FFF) (hn : a.toNat + p.length ≤ 0x8000)
      (hd : s.dir = .input)
      (hu : writeRun p 0 (startCursor a (BitVec.ofNat 16 p.length)
        (beginWrite (loadLen (BitVec.ofNat 16 p.length) (loadAddr a (accept .bulkwr s))))) = .next u)
      (hw : waitPage u = .next w) :
      Executed (.bulkwr a p) s (completeWith statusOk false (forgetCursor (closeBracket w)))
  | erase {n : Word} {s u w : State} (hn : n.toNat ≤ 0x8000) (hd : s.dir = .input)
      (hu : writeRun (List.replicate n.toNat 0xFF) 0
        (startCursor 0 (BitVec.ofNat 16 (List.replicate n.toNat (0xFF : Byte)).length)
          (beginWrite (loadLen n (accept .erase s)))) = .next u)
      (hw : waitPage u = .next w) :
      Executed (.erase n) s (completeWith statusOk false (forgetCursor (closeBracket w)))
  | sdpen {s u w : State} (hd : s.dir = .input)
      (hu : writeTable sdpEnTable 0 (beginWrite (accept .sdpen s)) = .next u) (hw : waitPage u = .next w) :
      Executed .sdpen s (completeWith statusOk false (forgetIndex (closeBracket w)))
  | sdpdis {s u w : State} (hd : s.dir = .input)
      (hu : writeTable sdpDisTable 0 (beginWrite (accept .sdpdis s)) = .next u) (hw : waitPage u = .next w) :
      Executed .sdpdis s (completeWith statusOk false (forgetIndex (closeBracket w)))

/-- A request that no cause refuses and that answers a next state is one of these. -/
theorem executed_of_exec {i : Instr} {s t : State} (h : exec i s = .next t)
    (hr : refusalStatus i s.dir = none) : Executed i s t := by
  cases i with
  | setaddr a =>
    have ha := refusalStatus_setaddr hr
    rw [exec_setaddr ha, setAddress_eq] at h
    injection h with h
    exact h ▸ .setaddr ha
  | rdbyte a =>
    obtain ⟨ha, hd⟩ := refusalStatus_rdbyte hr
    rw [exec_rdbyte ha hd, readByte_frame] at h
    injection h with h
    exact h ▸ .rdbyte ha hd _ _ _
  | wrbyte a v =>
    obtain ⟨ha, hd⟩ := refusalStatus_wrbyte hr
    obtain ⟨hs, rfl⟩ := exec_wrbyte_cases ha hd h
    exact .wrbyte ha hs
  | beginrd =>
    injection h with h
    exact h ▸ .beginrd
  | endrd =>
    injection h with h
    exact h ▸ .endrd
  | beginwr =>
    have hd := refusalStatus_beginwr hr
    rw [exec_beginwr hd] at h
    injection h with h
    exact h ▸ .beginwr hd
  | endwr =>
    obtain ⟨w, hw, rfl⟩ := exec_endwr_cases (refusalStatus_endwr hr) h
    exact .endwr (refusalStatus_endwr hr) hw
  | bulkwr a p =>
    obtain ⟨ha, hn, hd⟩ := refusalStatus_bulkwr hr
    obtain ⟨u, w, hu, hw, rfl⟩ := exec_bulkwr_cases ha hn hd h
    exact .bulkwr ha hn hd hu hw
  | erase n =>
    obtain ⟨hn, hd⟩ := refusalStatus_erase hr
    obtain ⟨u, w, hu, hw, rfl⟩ := exec_erase_cases hn hd h
    exact .erase hn hd hu hw
  | sdpen =>
    obtain ⟨u, w, hu, hw, rfl⟩ := exec_sdpen_cases (refusalStatus_sdpen hr) h
    exact .sdpen (refusalStatus_sdpen hr) hu hw
  | sdpdis =>
    obtain ⟨u, w, hu, hw, rfl⟩ := exec_sdpdis_cases (refusalStatus_sdpdis hr) h
    exact .sdpdis (refusalStatus_sdpdis hr) hu hw

/-! ### The cases of R75 in its words -/

theorem enableGroup_eq : sdpEnTable.map pulseOf = enableGroup := by decide

theorem disableGroup_eq : sdpDisTable.map pulseOf = disableGroup := by decide

theorem dataGroup_iff {g : List Pulse} : isDataGroup g = true ↔ DataGroup g := by
  rw [isDataGroup_iff]
  simp [DataGroup, page, Nat.shiftRight_eq_div_pow]

theorem classify_data {g : List Pulse} (h : DataGroup g) : classifyGroup g = .data := by
  have h0 := dataGroup_iff.mpr h
  unfold classifyGroup
  rw [if_neg (isDataGroup_ne_nil h0), if_neg, if_neg, if_pos h0]
  · rintro rfl
    revert h0
    decide
  · rintro rfl
    revert h0
    decide

theorem classify_defective {g : List Pulse} (h0 : g ≠ []) (he : g ≠ enableGroup) (hd : g ≠ disableGroup)
    (hg : ¬ DataGroup g) (h : MadeFrom g enableGroup ∨ MadeFrom g disableGroup) : classifyGroup g = .defective := by
  unfold classifyGroup
  rw [enableGroup_eq, disableGroup_eq, if_neg h0, if_neg he, if_neg hd, if_neg (by rwa [dataGroup_iff]), if_pos]
  simp only [Bool.or_eq_true, isPartOf_iff]
  exact h

theorem classify_other {g : List Pulse} (h0 : g ≠ []) (hg : ¬ DataGroup g) (he : ¬ MadeFrom g enableGroup)
    (hd : ¬ MadeFrom g disableGroup) : classifyGroup g = .other := by
  have hE : g ≠ enableGroup := fun h => he (h ▸ ⟨_, .refl _, .refl _⟩)
  have hD : g ≠ disableGroup := fun h => hd (h ▸ ⟨_, .refl _, .refl _⟩)
  unfold classifyGroup
  rw [enableGroup_eq, disableGroup_eq, if_neg h0, if_neg hE, if_neg hD, if_neg (by rwa [dataGroup_iff]), if_neg]
  simp only [Bool.or_eq_true, isPartOf_iff]
  exact fun h => h.elim he hd

/-- What an exact sequence leaves in the array (R78, R79). -/
theorem readCell_storeSequence (last : Byte) {s : State} (h : s.mem.wf) (a : Nat) :
    readCell (storeSequence last s) a =
      if s.config.sdpSeqStores = true ∧ s.sdp = false then
        (if a = 0x5555 then last else if a = 0x2AAA then 0x55 else readCell s.mem a)
      else readCell s.mem a := by
  unfold storeSequence
  by_cases hc : s.config.sdpSeqStores = true ∧ s.sdp = false
  · rw [if_pos hc, if_pos (by rw [hc.1, hc.2]; rfl),
      readCell_writeCell (wf_writeCell h (by decide) _), readCell_writeCell h]
    by_cases h5 : a = 0x5555
    · subst h5
      rfl
    · rw [if_neg h5, if_neg (Ne.symm h5)]
      by_cases h2 : a = 0x2AAA
      · subst h2
        rfl
      · rw [if_neg h2, if_neg (Ne.symm h2)]
  · rw [if_neg hc, if_neg]
    simpa using hc

end Sys2Proof.Machine
end

