-- ==== Sys2Proof/Laws/PerInstr.lean ====
section
/-! SUPPORT. Statements made for each request on its own, about the request as syntax. -/

namespace Sys2Proof.Laws.EncodeLength

/-- The packet length of a request by its format (R105, R111): F0 has 1 byte, FA and FL 3, FAD 4, FAL five and its
payload. -/
def Statement (i : Instr) : Prop :=
  (encode i).length =
    match i with
    | .setaddr _ | .rdbyte _ | .erase _ => 3
    | .wrbyte _ _ => 4
    | .bulkwr _ p => 5 + p.length
    | .beginrd | .endrd | .beginwr | .endwr | .sdpen | .sdpdis => 1

theorem setaddr (a : Word) : Statement (.setaddr a) := rfl
theorem rdbyte (a : Word) : Statement (.rdbyte a) := rfl
theorem wrbyte (a : Word) (v : Byte) : Statement (.wrbyte a v) := rfl
theorem beginrd : Statement .beginrd := rfl
theorem endrd : Statement .endrd := rfl
theorem beginwr : Statement .beginwr := rfl
theorem endwr : Statement .endwr := rfl
theorem bulkwr (a : Word) (p : List Byte) : Statement (.bulkwr a p) := by
  simp only [Statement, encode, List.cons_append, List.nil_append, List.length_cons]
  omega
theorem erase (n : Word) : Statement (.erase n) := rfl
theorem sdpen : Statement .sdpen := rfl
theorem sdpdis : Statement .sdpdis := rfl

end Sys2Proof.Laws.EncodeLength
end

