-- ==== Sys2Proof/Laws/Runs.lean ====
section
/-! SUPPORT. The paced write run under `PACE_RULE = next_address` (R176, R177): every page wait commits a data group, so
the run completes, and what it leaves in the array and in the trace. -/

namespace Sys2Proof.Machine

theorem lastStored_append (g : List Pulse) (p : Pulse) (a : Nat) (b : Byte) :
    lastStored (g ++ [p]) a b = if p.1.toNat = a then p.2 else lastStored g a b := by
  simp [lastStored]

/-- The pending group of a run at cursor `c`: pulses of the cursor's page, all below it, no more than there are bytes in
the page below it. -/
structure RunGroup (g : List Pulse) (c : Nat) : Prop where
  samePage : ∀ p ∈ g, p.1.toNat / 64 = c / 64
  fits : g.length ≤ c % 64

theorem runGroup_nil (c : Nat) : RunGroup [] c := ⟨by simp, by simp⟩

/-- One more byte makes a data group. -/
theorem dataGroup_of_runGroup {g : List Pulse} {c : Nat} (h : RunGroup g c) (p : Pulse) (hp : p.1.toNat = c) :
    DataGroup (g ++ [p]) := by
  have hq : ∀ q ∈ g ++ [p], q.1.toNat / 64 = c / 64 := by
    intro q hq
    rcases List.mem_append.mp hq with hq | hq
    · exact h.samePage q hq
    · rw [List.mem_singleton.mp hq, hp]
  refine ⟨by simp, ?_, fun q hq' r hr => (hq q hq').trans (hq r hr).symm⟩
  have := h.fits
  have := Nat.mod_lt c (show 64 > 0 by decide)
  simp only [List.length_append, List.length_singleton]
  omega

theorem runGroup_step {g : List Pulse} {c : Nat} (h : RunGroup g c) (p : Pulse) (hp : p.1.toNat = c)
    (hc : (c + 1) % 64 ≠ 0) : RunGroup (g ++ [p]) (c + 1) := by
  have hpage : (c + 1) / 64 = c / 64 := by omega
  refine ⟨fun q hq => ?_, ?_⟩
  · rw [hpage]
    rcases List.mem_append.mp hq with hq | hq
    · exact h.samePage q hq
    · rw [List.mem_singleton.mp hq, hp]
  · have := h.fits
    simp only [List.length_append, List.length_singleton]
    omega

/-- What the commit of a run's group leaves. -/
def committed (s : State) : State :=
  { s with mem := if s.sdp then s.mem else storeGroup s.group s.mem, group := [] }

theorem commitGroup_run {s : State} (h : s.group = [] ∨ DataGroup s.group) :
    commitGroup s = .next (committed s) := by
  rcases h with h | h
  · rw [commitGroup_nil h]
    unfold committed
    cases s
    simp only at h
    subst h
    simp [storeGroup]
  · exact commitGroup_data (classify_data h)

theorem pace_nextAddress (c : Word) (i : Nat) : pace .nextAddress c i = decide (c.toNat % 64 = 0) := by
  have h : (c &&& 0x3F == 0) = true ↔ c.toNat % 64 = 0 := by
    rw [beq_iff_eq, ← BitVec.toNat_inj, BitVec.toNat_and]
    show c.toNat &&& 63 = 0 ↔ _
    rw [show (63 : Nat) = 2 ^ 6 - 1 from rfl, Nat.and_two_pow_sub_one_eq_mod]
  unfold pace
  rw [Bool.eq_iff_iff, h, decide_eq_true_eq]

/-- A state inside a run: the bracket is open and in contract, and the pending group fits the cursor. -/
structure InRun (s : State) : Prop where
  contract : pulseInContract s = true
  rule : s.config.paceRule = .nextAddress
  pending : RunGroup s.group s.cur.toNat

/-- One turn of the loop before its pacing test. -/
def wroteOne (v : Byte) (s : State) : State := advanceCursor (afterWrite s.cur v s)

/-- One turn of the loop: the byte, and the page wait when the next address begins a page. -/
def turn (v : Byte) (s : State) : State :=
  if (s.cur.toNat + 1) % 64 = 0 then committed (pageWaited (wroteOne v s)) else wroteOne v s

theorem cur_succ {s : State} (h : s.cur.toNat < 0x8000) : (s.cur + 1).toNat = s.cur.toNat + 1 := by
  rw [BitVec.toNat_add]
  simp
  omega

theorem addrLines_of_lt {a : Word} (h : a.toNat < 0x8000) : (addrLines a).toNat = a.toNat :=
  addrLines_toNat (addrOutOfRange_of_le (by omega))

@[simp] theorem turn_cur (v : Byte) (s : State) : (turn v s).cur = s.cur + 1 := by
  unfold turn
  split <;> rfl

theorem inRun_turn {v : Byte} {s : State} (h : InRun s) (hc : s.cur.toNat < 0x8000) : InRun (turn v s) := by
  have hk : pulseInContract (afterWrite s.cur v s) = true := afterWrite_inContract h.contract
  unfold turn
  split
  · exact ⟨hk, h.rule, runGroup_nil _⟩
  · next hm =>
    refine ⟨hk, h.rule, ?_⟩
    show RunGroup (s.group ++ [(addrLines s.cur, v)]) (s.cur + 1).toNat
    rw [cur_succ hc]
    exact runGroup_step h.pending _ (addrLines_of_lt hc) hm

/-- Inside the array a turn never stops. -/
theorem writeRun_turn {v : Byte} {rest : List Byte} {i : Nat} {s : State} (h : InRun s) (hc : s.cur.toNat < 0x8000) :
    writeRun (v :: rest) i s = writeRun rest (i + 1) (turn v s) := by
  have hp : pace (wroteOne v s).config.paceRule (wroteOne v s).cur (i + 1) =
      decide ((s.cur.toNat + 1) % 64 = 0) := by
    have h1 : (wroteOne v s).config.paceRule = .nextAddress := h.rule
    rw [h1, pace_nextAddress, ← cur_succ hc]
    rfl
  rw [writeRun, writeByte_eq s.cur v h.contract, andThen_next]
  show andThen (paceWait (i + 1) (wroteOne v s)) _ = _
  unfold paceWait turn
  rw [hp]
  split
  · next hm =>
    rw [if_pos (of_decide_eq_true hm), waitPage_eq, commitGroup_run, andThen_next]
    exact .inr (dataGroup_of_runGroup h.pending _ (addrLines_of_lt hc))
  · next hm => rw [if_neg (by simpa using hm), andThen_next]

/-- The state a run of bytes leaves. -/
def turns : List Byte → State → State
  | [], s => s
  | v :: rest, s => turns rest (turn v s)

/-- A run inside the array completes. -/
theorem writeRun_eq {rest : List Byte} {i : Nat} {s : State} (h : InRun s)
    (hc : s.cur.toNat + rest.length ≤ 0x8000) : writeRun rest i s = .next (turns rest s) := by
  induction rest generalizing i s with
  | nil => rfl
  | cons v rest ih =>
    rw [List.length_cons] at hc
    have hlt : s.cur.toNat < 0x8000 := by omega
    rw [writeRun_turn h hlt, ih (inRun_turn h hlt) (by rw [turn_cur, cur_succ hlt]; omega)]
    rfl

theorem inRun_turns {rest : List Byte} {s : State} (h : InRun s) (hc : s.cur.toNat + rest.length ≤ 0x8000) :
    InRun (turns rest s) := by
  induction rest generalizing s with
  | nil => exact h
  | cons v rest ih =>
    rw [List.length_cons] at hc
    have hlt : s.cur.toNat < 0x8000 := by omega
    exact ih (inRun_turn h hlt) (by rw [turn_cur, cur_succ hlt]; omega)

/-- `CUR` ends one past the last byte written (R14, R176, V34). -/
theorem turns_cur {rest : List Byte} {s : State} (hc : s.cur.toNat + rest.length ≤ 0x8000) :
    (turns rest s).cur.toNat = s.cur.toNat + rest.length := by
  induction rest generalizing s with
  | nil => rfl
  | cons v rest ih =>
    rw [List.length_cons] at hc
    have hlt : s.cur.toNat < 0x8000 := by omega
    show (turns rest (turn v s)).cur.toNat = _
    rw [ih (by rw [turn_cur, cur_succ hlt]; omega), turn_cur, cur_succ hlt, List.length_cons]
    omega

/-- The closing wait of a run never stops. -/
theorem waitPage_run {s : State} (h : s.group = [] ∨ DataGroup s.group) :
    waitPage s = .next (committed (pageWaited s)) := by
  rw [waitPage_eq]
  exact commitGroup_run h

theorem turn_group {v : Byte} {s : State} (h : InRun s) (hc : s.cur.toNat < 0x8000) :
    (turn v s).group = [] ∨ DataGroup (turn v s).group := by
  unfold turn
  split
  · exact .inl rfl
  · exact .inr (dataGroup_of_runGroup h.pending _ (addrLines_of_lt hc))

theorem turns_group {rest : List Byte} {s : State} (h : InRun s) (hc : s.cur.toNat + rest.length ≤ 0x8000)
    (hg : s.group = [] ∨ DataGroup s.group) : (turns rest s).group = [] ∨ DataGroup (turns rest s).group := by
  induction rest generalizing s with
  | nil => exact hg
  | cons v rest ih =>
    rw [List.length_cons] at hc
    have hlt : s.cur.toNat < 0x8000 := by omega
    exact ih (inRun_turn h hlt) (by rw [turn_cur, cur_succ hlt]; omega) (turn_group h hlt)

/-! ### The array after a run -/

/-- What an address will hold once the pending group has been committed on an unprotected chip. -/
def settled (s : State) (a : Nat) : Byte := lastStored s.group a (readCell s.mem a)

theorem readCell_committed {s : State} (hm : s.mem.wf) (hs : s.sdp = false) (a : Nat) :
    readCell (committed s).mem a = settled s a := by
  unfold committed
  rw [hs]
  exact readCell_storeGroup _ hm a

theorem committed_wf {s : State} (hm : s.mem.wf) : (committed s).mem.wf := by
  unfold committed
  show (if s.sdp = true then s.mem else storeGroup s.group s.mem).wf
  split
  · exact hm
  · exact wf_storeGroup _ hm

@[simp] theorem turn_sdp (v : Byte) (s : State) : (turn v s).sdp = s.sdp := by
  unfold turn
  split <;> rfl

theorem turn_wf {v : Byte} {s : State} (hm : s.mem.wf) : (turn v s).mem.wf := by
  unfold turn
  split
  · exact committed_wf hm
  · exact hm

/-- A turn settles its byte at the cursor and moves no other. -/
theorem settled_turn {v : Byte} {s : State} (hm : s.mem.wf) (hs : s.sdp = false) (hc : s.cur.toNat < 0x8000)
    (a : Nat) : settled (turn v s) a = if s.cur.toNat = a then v else settled s a := by
  have hw : settled (wroteOne v s) a = if s.cur.toNat = a then v else settled s a := by
    unfold settled
    show lastStored (s.group ++ [(addrLines s.cur, v)]) a (readCell s.mem a) = _
    rw [lastStored_append, addrLines_of_lt hc]
  unfold turn
  split
  · rw [← hw]
    exact readCell_committed (s := pageWaited (wroteOne v s)) hm hs a
  · exact hw

theorem turns_sdp (rest : List Byte) (s : State) : (turns rest s).sdp = s.sdp := by
  induction rest generalizing s with
  | nil => rfl
  | cons v rest ih => exact (ih _).trans (turn_sdp v s)

theorem turns_wf {rest : List Byte} {s : State} (hm : s.mem.wf) : (turns rest s).mem.wf := by
  induction rest generalizing s with
  | nil => exact hm
  | cons v rest ih => exact ih (turn_wf hm)

/-- A protected chip keeps its array through a run. -/
theorem turns_mem_protected {rest : List Byte} {s : State} (hs : s.sdp = true) : (turns rest s).mem = s.mem := by
  induction rest generalizing s with
  | nil => rfl
  | cons v rest ih =>
    show (turns rest (turn v s)).mem = s.mem
    rw [ih (by rw [turn_sdp, hs])]
    unfold turn
    split
    · show (if s.sdp = true then s.mem else _) = s.mem
      rw [if_pos hs]
    · rfl

/-- On an unprotected chip a run settles its payload at ascending addresses and moves no other byte. -/
theorem settled_turns {rest : List Byte} {s : State} (hm : s.mem.wf) (hs : s.sdp = false)
    (hc : s.cur.toNat + rest.length ≤ 0x8000) (a : Nat) :
    settled (turns rest s) a =
      if h : s.cur.toNat ≤ a ∧ a < s.cur.toNat + rest.length then rest[a - s.cur.toNat]'(by omega)
      else settled s a := by
  induction rest generalizing s with
  | nil =>
    rw [dif_neg (by simp)]
    rfl
  | cons v rest ih =>
    rw [List.length_cons] at hc
    have hlt : s.cur.toNat < 0x8000 := by omega
    have hcur : (turn v s).cur.toNat = s.cur.toNat + 1 := by rw [turn_cur, cur_succ hlt]
    show settled (turns rest (turn v s)) a = _
    rw [ih (turn_wf hm) (by rw [turn_sdp, hs]) (by omega)]
    by_cases ha : s.cur.toNat = a
    · rw [dif_neg (by omega), settled_turn hm hs hlt, if_pos ha, dif_pos (by rw [List.length_cons]; omega)]
      simp [ha]
    · by_cases hb : s.cur.toNat ≤ a ∧ a < s.cur.toNat + (rest.length + 1)
      · rw [dif_pos (by omega), dif_pos (by rw [List.length_cons]; omega)]
        have hi : a - s.cur.toNat = (a - (turn v s).cur.toNat) + 1 := by omega
        simp only [hi, List.getElem_cons_succ]
      · rw [dif_neg (by omega), dif_neg (by rw [List.length_cons]; omega), settled_turn hm hs hlt, if_neg ha]

/-! ### The pins and the trace after a run -/

/-- A run's trace (R176, R177). -/
theorem turns_trace {rest : List Byte} {s : State} (hc : s.cur.toNat + rest.length ≤ 0x8000) :
    (turns rest s).trace = s.trace ++ pacedTrace s.cur.toNat rest := by
  induction rest generalizing s with
  | nil => simp [turns, pacedTrace]
  | cons v rest ih =>
    rw [List.length_cons] at hc
    have hlt : s.cur.toNat < 0x8000 := by omega
    have hcur : (turn v s).cur.toNat = s.cur.toNat + 1 := by rw [turn_cur, cur_succ hlt]
    have ht : (turn v s).trace =
        s.trace ++ (writeTrace s.cur v ++ if (s.cur.toNat + 1) % 64 = 0 then [.waitPage] else []) := by
      have hw : (wroteOne v s).trace = s.trace ++ writeTrace s.cur v :=
        (trace_eq_of_traceRev_eq rfl).trans (trace_emit (writeTrace s.cur v) s)
      unfold turn
      split
      · rw [← List.append_assoc, ← hw]
        exact (trace_eq_of_traceRev_eq rfl).trans (trace_emit [.waitPage] (wroteOne v s))
      · rw [hw, List.append_nil]
    show (turns rest (turn v s)).trace = _
    rw [ih (by omega), ht, hcur, pacedTrace]
    simp

/-- The fields a run touches, and the pins after at least one byte. -/
theorem turns_frame (rest : List Byte) (s : State) :
    turns rest s = { s with
      cur := (turns rest s).cur, rem := (turns rest s).rem, sr := (turns rest s).sr, al := (turns rest s).al,
      ser := (turns rest s).ser, srclk := (turns rest s).srclk, rclk := (turns rest s).rclk,
      dout := (turns rest s).dout, weN := (turns rest s).weN, tmrWe := (turns rest s).tmrWe,
      tmrPage := (turns rest s).tmrPage, mem := (turns rest s).mem, group := (turns rest s).group,
      traceRev := (turns rest s).traceRev } := by
  induction rest generalizing s with
  | nil => rfl
  | cons v rest ih =>
    have h1 : turn v s = { s with
        cur := (turn v s).cur, rem := (turn v s).rem, sr := (turn v s).sr, al := (turn v s).al,
        ser := (turn v s).ser, srclk := (turn v s).srclk, rclk := (turn v s).rclk,
        dout := (turn v s).dout, weN := (turn v s).weN, tmrWe := (turn v s).tmrWe,
        tmrPage := (turn v s).tmrPage, mem := (turn v s).mem, group := (turn v s).group,
        traceRev := (turn v s).traceRev } := by
      unfold turn
      split <;> rfl
    have h2 := ih (turn v s)
    show turns rest (turn v s) = { s with
      cur := (turns rest (turn v s)).cur, rem := (turns rest (turn v s)).rem, sr := (turns rest (turn v s)).sr,
      al := (turns rest (turn v s)).al, ser := (turns rest (turn v s)).ser, srclk := (turns rest (turn v s)).srclk,
      rclk := (turns rest (turn v s)).rclk, dout := (turns rest (turn v s)).dout, weN := (turns rest (turn v s)).weN,
      tmrWe := (turns rest (turn v s)).tmrWe, tmrPage := (turns rest (turn v s)).tmrPage,
      mem := (turns rest (turn v s)).mem, group := (turns rest (turn v s)).group,
      traceRev := (turns rest (turn v s)).traceRev }
    generalize turns rest (turn v s) = x at *
    rw [h1] at h2
    exact h2

/-- After at least one byte the pins are those of the last one. -/
theorem turns_pins {rest : List Byte} {s : State} (hr : rest ≠ []) (hc : s.cur.toNat + rest.length ≤ 0x8000) :
    (turns rest s).al.toNat = s.cur.toNat + rest.length - 1 ∧ some (turns rest s).dout = rest.getLast? ∧
      (turns rest s).sr = (turns rest s).al ∧ (turns rest s).ser = (turns rest s).al.getLsbD 0 ∧
      (turns rest s).srclk = false ∧ (turns rest s).rclk = false ∧ (turns rest s).weN = true ∧
      (turns rest s).tmrWe = 0 := by
  induction rest generalizing s with
  | nil => contradiction
  | cons v rest ih =>
    rw [List.length_cons] at hc
    have hlt : s.cur.toNat < 0x8000 := by omega
    have hcur : (turn v s).cur.toNat = s.cur.toNat + 1 := by rw [turn_cur, cur_succ hlt]
    cases rest with
    | nil =>
      have h : (turn v s).al = s.cur ∧ (turn v s).dout = v ∧ (turn v s).sr = s.cur ∧
          (turn v s).ser = s.cur.getLsbD 0 ∧ (turn v s).srclk = false ∧ (turn v s).rclk = false ∧
          (turn v s).weN = true ∧ (turn v s).tmrWe = 0 := by
        unfold turn
        split <;> exact ⟨rfl, rfl, rfl, rfl, rfl, rfl, rfl, rfl⟩
      obtain ⟨h1, h2, h3, h4, h5, h6, h7, h8⟩ := h
      show (turn v s).al.toNat = _ ∧ _
      refine ⟨by rw [h1]; simp, ?_, h3.trans h1.symm, ?_, h5, h6, h7, h8⟩
      · show some (turn v s).dout = _
        rw [h2]
        rfl
      · show (turn v s).ser = (turn v s).al.getLsbD 0
        rw [h4, h1]
    | cons w rest =>
      obtain ⟨h1, h2, h3⟩ := ih (s := turn v s) (by simp) (by omega)
      refine ⟨?_, ?_, h3⟩
      · show (turns (w :: rest) (turn v s)).al.toNat = _
        rw [h1, hcur]
        simp only [List.length_cons]
        omega
      · show some (turns (w :: rest) (turn v s)).dout = _
        rw [h2]
        rfl

/-- The trace of any completed run, from any state (R176, R177). -/
theorem writeRun_trace {rest : List Byte} {i : Nat} {s t : State} (hr : s.config.paceRule = .nextAddress)
    (hc : s.cur.toNat + rest.length ≤ 0x8000) (h : writeRun rest i s = .next t) :
    t.trace = s.trace ++ pacedTrace s.cur.toNat rest := by
  induction rest generalizing i s with
  | nil =>
    injection h with h
    simp [← h, pacedTrace]
  | cons v rest ih =>
    rw [List.length_cons] at hc
    obtain ⟨u, -, hu, hw⟩ := writeRun_cons h
    have hlt : s.cur.toNat < 0x8000 := by omega
    have ht : (advanceCursor (afterWrite s.cur v s)).trace = s.trace ++ writeTrace s.cur v :=
      (trace_eq_of_traceRev_eq rfl).trans (trace_emit (writeTrace s.cur v) s)
    have hp : pace s.config.paceRule (s.cur + 1) (i + 1) = decide ((s.cur.toNat + 1) % 64 = 0) := by
      rw [hr, pace_nextAddress, cur_succ hlt]
    have key : u.cur = s.cur + 1 ∧ u.config = s.config ∧
        u.trace = s.trace ++ writeTrace s.cur v ++ (if (s.cur.toNat + 1) % 64 = 0 then [.waitPage] else []) := by
      rcases paceWait_cases hu with ⟨h1, h2⟩ | ⟨h1, rfl⟩
      · replace h1 : pace s.config.paceRule (s.cur + 1) (i + 1) = true := h1
        rw [hp, decide_eq_true_iff] at h1
        rw [waitPage_cases h2, if_pos h1, ← ht]
        exact ⟨rfl, rfl, (trace_eq_of_traceRev_eq rfl).trans (trace_emit [.waitPage] _)⟩
      · replace h1 : pace s.config.paceRule (s.cur + 1) (i + 1) = false := h1
        rw [hp, decide_eq_false_iff_not] at h1
        rw [if_neg h1, List.append_nil]
        exact ⟨rfl, rfl, ht⟩
    obtain ⟨k1, k2, k3⟩ := key
    have k4 : u.cur.toNat = s.cur.toNat + 1 := by rw [k1, cur_succ hlt]
    rw [ih (by rw [k2, hr]) (by omega) hw, k3, k4, pacedTrace, BitVec.ofNat_toNat, BitVec.setWidth_eq]
    simp

/-! ### The whole body of a bulk write or an erase -/

/-- The state in which the loop of R176 starts. -/
def runStart (a : Word) (p : List Byte) (s : State) : State :=
  startCursor a (BitVec.ofNat 16 p.length) (beginWrite s)

theorem runStart_eq (a : Word) (p : List Byte) (s : State) :
    runStart a p s = { s with
      cur := a, rem := BitVec.ofNat 16 p.length, ledProg := true, dir := .output, oeN := true
      traceRev := .oeN true :: .dir .output :: .ledProg true :: s.traceRev } := rfl

@[simp] theorem runStart_cur (a : Word) (p : List Byte) (s : State) : (runStart a p s).cur = a := rfl
@[simp] theorem runStart_mem (a : Word) (p : List Byte) (s : State) : (runStart a p s).mem = s.mem := rfl
@[simp] theorem runStart_sdp (a : Word) (p : List Byte) (s : State) : (runStart a p s).sdp = s.sdp := rfl
@[simp] theorem runStart_group (a : Word) (p : List Byte) (s : State) : (runStart a p s).group = s.group := rfl

/-- The state the body of R176 leaves. -/
def afterPaced (a : Word) (p : List Byte) (s : State) : State :=
  forgetCursor (closeBracket (committed (pageWaited (turns p (runStart a p s)))))

/-- Its fields, in terms of the run's. -/
theorem afterPaced_eq (a : Word) (p : List Byte) (s : State) :
    afterPaced a p s = { turns p (runStart a p s) with
      cur := Config.freeBits 16 (turns p (runStart a p s)).draws
      rem := Config.freeBits 16 ((turns p (runStart a p s)).draws + 1)
      draws := (turns p (runStart a p s)).draws + 2
      tmrPage := 0
      oeN := false
      dir := .input
      ledProg := false
      mem := (committed (turns p (runStart a p s))).mem
      group := []
      traceRev := .ledProg false :: .dir .input :: .oeN false :: .waitPage :: (turns p (runStart a p s)).traceRev } := by
  unfold afterPaced
  generalize turns p (runStart a p s) = x
  rfl

theorem inRun_start {a : Word} {p : List Byte} {s : State} (hw : s.weN = true) (hg : s.group = [])
    (hr : s.config.paceRule = .nextAddress) : InRun (runStart a p s) := by
  refine ⟨?_, hr, ?_⟩
  · show (s.weN && true && true) = true
    rw [hw]
    rfl
  · show RunGroup s.group a.toNat
    rw [hg]
    exact runGroup_nil _

/-- Inside the array, from a closed bracket, the body of R176 completes. -/
theorem pacedWrite_eq {a : Word} {p : List Byte} {s : State} (hn : a.toNat + p.length ≤ 0x8000) (hw : s.weN = true)
    (hg : s.group = []) (hr : s.config.paceRule = .nextAddress) : pacedWrite a p s = .next (afterPaced a p s) := by
  have hi : InRun (runStart a p s) := inRun_start hw hg hr
  have hq := turns_group hi (by exact hn) (.inl (by exact hg))
  unfold pacedWrite
  show andThen (writeRun p 0 (runStart a p s)) _ = _
  rw [writeRun_eq hi (by exact hn), andThen_next, endWrite_eq, waitPage_run hq]
  rfl

/-- Its trace (R176, R177, R182, R183). -/
theorem afterPaced_trace {a : Word} {p : List Byte} (s : State) (hn : a.toNat + p.length ≤ 0x8000) :
    (afterPaced a p s).trace = s.trace ++ beginTrace ++ pacedTrace a.toNat p ++ endTrace := by
  have h1 : (afterPaced a p s).trace = (turns p (runStart a p s)).trace ++ endTrace :=
    (trace_eq_of_traceRev_eq rfl).trans (trace_emit endTrace (turns p (runStart a p s)))
  have h2 : (runStart a p s).trace = s.trace ++ beginTrace :=
    (trace_eq_of_traceRev_eq rfl).trans (trace_emit beginTrace s)
  rw [h1, turns_trace (by exact hn), h2]
  rfl

/-- Its frame, whatever it wrote. -/
theorem afterPaced_frame (a : Word) (p : List Byte) (s : State) (hg : s.group = []) :
    afterPaced a p s = { s with
      cur := (afterPaced a p s).cur, rem := (afterPaced a p s).rem, draws := (afterPaced a p s).draws,
      sr := (afterPaced a p s).sr, al := (afterPaced a p s).al, ser := (afterPaced a p s).ser,
      srclk := (afterPaced a p s).srclk, rclk := (afterPaced a p s).rclk, dout := (afterPaced a p s).dout,
      weN := (afterPaced a p s).weN, tmrWe := (afterPaced a p s).tmrWe, tmrPage := 0, dir := .input, oeN := false,
      ledProg := false, mem := (afterPaced a p s).mem, traceRev := (afterPaced a p s).traceRev } := by
  have h := turns_frame p (runStart a p s)
  rw [afterPaced_eq]
  generalize turns p (runStart a p s) = x at *
  cases s
  cases x
  simp only [runStart, startCursor, beginWrite_eq, emit, State.mk.injEq] at h hg
  simp_all

theorem settled_run {p : List Byte} {s : State} {c : Nat} (hc : s.cur.toNat = c)
    (hn : c + p.length ≤ 0x8000) (hm : s.mem.wf) (hs : s.sdp = false) (b : Nat) :
    settled (turns p s) b =
      if h : c ≤ b ∧ b < c + p.length then p[b - c]'(by omega) else settled s b := by
  subst hc
  exact settled_turns hm hs hn b

/-- The pins it leaves after at least one byte. -/
theorem afterPaced_pins {a : Word} {p : List Byte} (s : State) (hp : p ≠ []) (hn : a.toNat + p.length ≤ 0x8000) :
    (afterPaced a p s).al.toNat = a.toNat + p.length - 1 ∧ some (afterPaced a p s).dout = p.getLast? ∧
      (afterPaced a p s).sr = (afterPaced a p s).al ∧ (afterPaced a p s).ser = (afterPaced a p s).al.getLsbD 0 ∧
      (afterPaced a p s).srclk = false ∧ (afterPaced a p s).rclk = false ∧ (afterPaced a p s).weN = true ∧
      (afterPaced a p s).tmrWe = 0 := by
  rw [afterPaced_eq]
  exact turns_pins (s := runStart a p s) hp hn

/-- With no byte to write the pins are left as they were (R179). -/
theorem afterPaced_pins_nil (a : Word) (s : State) :
    (afterPaced a [] s).al = s.al ∧ (afterPaced a [] s).dout = s.dout ∧ (afterPaced a [] s).sr = s.sr ∧
      (afterPaced a [] s).ser = s.ser ∧ (afterPaced a [] s).srclk = s.srclk ∧ (afterPaced a [] s).rclk = s.rclk ∧
      (afterPaced a [] s).weN = s.weN ∧ (afterPaced a [] s).tmrWe = s.tmrWe := by
  have h : turns [] (runStart a [] s) = runStart a [] s := rfl
  rw [afterPaced_eq, h, runStart_eq]
  exact ⟨rfl, rfl, rfl, rfl, rfl, rfl, rfl, rfl⟩

/-- Write enable is high again, as it was. -/
theorem afterPaced_weN {a : Word} {p : List Byte} {s : State} (hn : a.toNat + p.length ≤ 0x8000) (hw : s.weN = true) :
    (afterPaced a p s).weN = true := by
  by_cases hp : p = []
  · subst hp
    rw [(afterPaced_pins_nil a s).2.2.2.2.2.2.1, hw]
  · exact (afterPaced_pins s hp hn).2.2.2.2.2.2.1

/-- The array it leaves on an unprotected chip (R76, R176). -/
theorem readCell_afterPaced {a : Word} {p : List Byte} {s : State} (hn : a.toNat + p.length ≤ 0x8000)
    (hg : s.group = []) (hm : s.mem.wf) (hs : s.sdp = false) (b : Nat) :
    readCell (afterPaced a p s).mem b =
      if h : a.toNat ≤ b ∧ b < a.toNat + p.length then p[b - a.toNat]'(by omega) else readCell s.mem b := by
  have hw : (turns p (runStart a p s)).mem.wf := turns_wf (by rwa [runStart_mem])
  have hd : (turns p (runStart a p s)).sdp = false := by rw [turns_sdp, runStart_sdp, hs]
  have h0 : settled (runStart a p s) b = readCell s.mem b := by
    show lastStored s.group b (readCell s.mem b) = _
    rw [hg]
    rfl
  rw [afterPaced_eq]
  show readCell (committed (turns p (runStart a p s))).mem b = _
  rw [readCell_committed hw hd, ← h0]
  exact settled_run (by rw [runStart_cur]) hn (by rwa [runStart_mem]) (by rwa [runStart_sdp]) b

theorem afterPaced_wf (a : Word) (p : List Byte) {s : State} (hm : s.mem.wf) : (afterPaced a p s).mem.wf :=
  committed_wf (s := pageWaited (turns p (runStart a p s))) (turns_wf (by rwa [runStart_mem]))

/-- The array it leaves on a protected chip (R77). -/
theorem afterPaced_mem_protected (a : Word) (p : List Byte) {s : State} (hs : s.sdp = true) :
    (afterPaced a p s).mem = s.mem := by
  have h : (turns p (runStart a p s)).sdp = true := by rw [turns_sdp, runStart_sdp, hs]
  rw [afterPaced_eq]
  show (if (turns p (runStart a p s)).sdp = true then (turns p (runStart a p s)).mem else _) = s.mem
  rw [if_pos h, turns_mem_protected (by rwa [runStart_sdp]), runStart_mem]

/-- An accepted bulk write after its operands are loaded (R21). -/
def bulkAccepted (a : Word) (p : List Byte) (s : State) : State :=
  loadLen (BitVec.ofNat 16 p.length) (loadAddr a (accept .bulkwr s))

@[simp] theorem bulkAccepted_mem (a : Word) (p : List Byte) (s : State) : (bulkAccepted a p s).mem = s.mem := rfl
@[simp] theorem bulkAccepted_sdp (a : Word) (p : List Byte) (s : State) : (bulkAccepted a p s).sdp = s.sdp := rfl
@[simp] theorem bulkAccepted_group (a : Word) (p : List Byte) (s : State) : (bulkAccepted a p s).group = s.group := rfl

/-- An accepted erase after its operand is loaded (R21). -/
def eraseAccepted (n : Word) (s : State) : State := loadLen n (accept .erase s)

@[simp] theorem eraseAccepted_mem (n : Word) (s : State) : (eraseAccepted n s).mem = s.mem := rfl
@[simp] theorem eraseAccepted_sdp (n : Word) (s : State) : (eraseAccepted n s).sdp = s.sdp := rfl
@[simp] theorem eraseAccepted_group (n : Word) (s : State) : (eraseAccepted n s).group = s.group := rfl

/-- A bulk write inside the array, from a closed bracket (R176). -/
theorem exec_bulkwr_run {a : Word} {p : List Byte} {s : State} (ha : a.toNat ≤ 0x7FFF)
    (hn : a.toNat + p.length ≤ 0x8000) (hs : s.Closed) (hr : s.config.paceRule = .nextAddress) :
    exec (.bulkwr a p) s = .next (completeWith statusOk false (afterPaced a p (bulkAccepted a p s))) := by
  rw [exec_bulkwr ha hn hs.dirIn]
  show andThen (pacedWrite a p (bulkAccepted a p s)) _ = _
  rw [pacedWrite_eq (s := bulkAccepted a p s) hn hs.weHigh hs.noGroup hr, andThen_next]

/-- An erase from a closed bracket (R178). -/
theorem exec_erase_run {n : Word} {s : State} (hn : n.toNat ≤ 0x8000) (hs : s.Closed)
    (hr : s.config.paceRule = .nextAddress) :
    exec (.erase n) s =
      .next (completeWith statusOk false (afterPaced 0 (List.replicate n.toNat 0xFF) (eraseAccepted n s))) := by
  have hl : (0 : Word).toNat + (List.replicate n.toNat (0xFF : Byte)).length ≤ 0x8000 := by
    simpa using hn
  rw [exec_erase hn hs.dirIn]
  show andThen (pacedWrite 0 (List.replicate n.toNat 0xFF) (eraseAccepted n s)) _ = _
  rw [pacedWrite_eq (s := eraseAccepted n s) hl hs.weHigh hs.noGroup hr, andThen_next]

theorem pacedTrace_length (a : Nat) (p : List Byte) :
    (pacedTrace a p).length = 63 * p.length + ((a + p.length) / 64 - a / 64) := by
  induction p generalizing a with
  | nil => simp [pacedTrace]
  | cons v p ih =>
    simp only [pacedTrace, List.length_append, writeTrace_length, ih, List.length_cons]
    split <;> simp <;> omega

theorem writeTrace_count (a : Word) (v : Byte) : (writeTrace a v).count .waitPage = 0 := by
  rfl

theorem pacedTrace_count (a : Nat) (p : List Byte) :
    (pacedTrace a p).count .waitPage = (a + p.length) / 64 - a / 64 := by
  induction p generalizing a with
  | nil => simp [pacedTrace]
  | cons v p ih =>
    simp only [pacedTrace, List.count_append, writeTrace_count, ih, List.length_cons]
    split <;> simp <;> omega

end Sys2Proof.Machine
end

