-- ==== Sys2Proof/Tests/Slice0.lean ====
section
/-! SUPPORT. Tests. Expected values come from the worked examples of the spec's rules and from the vectors V1 to V86 and the
examples S1 to S10 of spec/95_test_vectors.md, or are worked out by hand from the encodings of spec/30_encoding.md. -/

namespace Sys2Proof.Tests

open Sys2Proof.Machine

/-! ### Small states -/

/-- "Start: reset" with launch contents and an SDP latch. -/
def idle (mem : Memory) (sdp : Bool) : State := launch mem sdp Config.default

/-- "Start: bracket open", a group already pulsed in. -/
def opened (mem : Memory) (sdp : Bool) (group : List Pulse) : State :=
  { idle mem sdp with dir := .output, oeN := true, ledProg := true, group := group }

/-- A field of the next state, if there is one. -/
def seen {α : Type} (f : State → α) : Result → Option α
  | .next s => some (f s)
  | .fault _ => none
  | .refused _ => none

/-- The reason of a refused run. -/
def whyRefused : Result → Option Refusal
  | .next _ => none
  | .fault _ => none
  | .refused r => some r

/-- The levels on `SER`, in order. -/
def serLevels (es : List Event) : List Bool :=
  es.filterMap fun e => match e with
    | .ser b => some b
    | _ => none

/-! ### Well-formedness: the one check, and a term it refuses -/

/-- The check is on the length alone. -/
theorem wellFormed_bulkwr (a : Word) (p : List Byte) : WellFormed (.bulkwr a p) ↔ p.length < 0x10000 :=
  decide_eq_true_iff

theorem test_wellFormed_payload_of_65535 : WellFormed (.bulkwr 0 (List.replicate 0xFFFF 0)) := by
  rw [wellFormed_bulkwr, List.length_replicate]
  decide

theorem test_illFormed_payload_of_65536 : ¬ WellFormed (.bulkwr 0 (List.replicate 0x10000 0)) := by
  rw [wellFormed_bulkwr, List.length_replicate]
  decide

/-! ### Decoding: one packet per constructor, its bytes written from R104 to R110 -/

theorem test_decode_setaddr : decode [0b00000001, 0b00010010, 0b00110100] = .ok (.setaddr 0x1234, 3) := by decide
theorem test_decode_rdbyte : decode [0b00000010, 0b00000001, 0b00000000] = .ok (.rdbyte 0x0100, 3) := by decide
theorem test_decode_wrbyte :
    decode [0b00000011, 0b00000001, 0b00000000, 0b10101010] = .ok (.wrbyte 0x0100 0xAA, 4) := by decide
theorem test_decode_beginrd : decode [0b00000100] = .ok (.beginrd, 1) := by decide
theorem test_decode_endrd : decode [0b00000101] = .ok (.endrd, 1) := by decide
theorem test_decode_beginwr : decode [0b00000110] = .ok (.beginwr, 1) := by decide
theorem test_decode_endwr : decode [0b00000111] = .ok (.endwr, 1) := by decide
theorem test_decode_bulkwr :
    decode [0b00001000, 0b00000001, 0b00000000, 0b00000000, 0b00000011, 0xAA, 0xBB, 0xCC, 0x04] =
      .ok (.bulkwr 0x0100 [0xAA, 0xBB, 0xCC], 8) := by decide
theorem test_decode_erase : decode [0b00001001, 0b00000000, 0b01000000] = .ok (.erase 0x0040, 3) := by decide
theorem test_decode_sdpen : decode [0b00001010] = .ok (.sdpen, 1) := by decide
theorem test_decode_sdpdis : decode [0b00001011] = .ok (.sdpdis, 1) := by decide

/-- V80 to V83: reserved commands. -/
theorem test_decode_reserved :
    decode [0x00] = .error (.reservedCmd 0x00) ∧ decode [0x0C] = .error (.reservedCmd 0x0C) ∧
      decode [0xFF] = .error (.reservedCmd 0xFF) ∧ decode [0x11, 0x12, 0x34] = .error (.reservedCmd 0x11) := by decide

/-- A packet cut short, in its header and in its payload. -/
theorem test_decode_truncated :
    decode [0x01, 0x12] = .error .truncatedPacket ∧
      decode [0x08, 0x01, 0x00, 0x00, 0x02, 0xAA] = .error .truncatedPacket := by decide

/-- The table numbers a packet's first byte as bits 7..0; the table's own rows have those eight bits only. -/
theorem test_tableWord :
    decodeTableWord 24 0x341201 = some (.setaddr 0x1234) ∧ decodeTableWord 8 0x01 = some (.setaddr 0) ∧
      decodeTableWord 8 0x08 = some (.bulkwr 0 []) ∧
      decodeTableWord 64 0xCCBBAA0300000108 = some (.bulkwr 0x0100 [0xAA, 0xBB, 0xCC]) ∧
      decodeTableWord 8 0x0C = none := by decide

/-- A placed packet is what the next step runs. -/
theorem test_withFetchWord :
    seen State.ledRead (step (State.reset.withFetchWord 8 0x04)) = some true ∧
      seen State.al (step (State.reset.withFetchWord 24 0x341201)) = some 0x1234 := by decide

/-! ### SETADDR -/

/-- V1. -/
theorem test_setaddr :
    seen (fun s => (s.sr, s.al, s.status, s.trace.length)) (exec (.setaddr 0x1234) (idle [] false)) =
      some (0x1234, 0x1234, 0x00, 51) := by decide

/-- V1: `0001 0010 0011 0100`. -/
theorem test_setaddr_ser :
    seen (fun s => serLevels s.trace) (exec (.setaddr 0x1234) (idle [] false)) =
      some [false, false, false, true, false, false, true, false,
        false, false, true, true, false, true, false, false] := by decide

/-! ### RDBYTE -/

/-- V20. -/
theorem test_rdbyte :
    seen (fun s => (s.records, s.trace.drop 51)) (exec (.rdbyte 0x0100) (idle [(0x0100, 0xAA)] false)) =
      some ([[0x00, 0xAA]], [.rd 7 true, .rd 6 false, .rd 5 true, .rd 4 false, .rd 3 true, .rd 2 false, .rd 1 true,
        .rd 0 false]) := by decide

/-- V22, V23. -/
theorem test_rdbyte_refused :
    seen State.records (exec (.rdbyte 0x0100) (opened [] false [])) = some [[0x04]] ∧
      seen State.records (exec (.rdbyte 0xFFFF) (idle [] false)) = some [[0x02]] := by decide

/-! ### WRBYTE -/

/-- V10. -/
theorem test_wrbyte :
    seen (fun s => (s.group, s.mem, s.trace.drop 51)) (exec (.wrbyte 0x0100 0xAA) (opened [] false [])) =
      some ([(0x0100, 0xAA)], [], [.d 0 false, .d 1 true, .d 2 false, .d 3 true, .d 4 false, .d 5 true, .d 6 false,
        .d 7 true, .weN false, .waitUs 1, .weN true, .waitUs 1]) := by decide

/-- V14, V15: the address is tested before the bracket, and a refusal loads no operand register. -/
theorem test_wrbyte_refused :
    seen (fun s => (s.status, s.addr, s.trace)) (exec (.wrbyte 0x0100 0xAA) (idle [] false)) = some (0x04, 0, []) ∧
      seen State.status (exec (.wrbyte 0x8000 0xAA) (idle [] false)) = some 0x02 := by decide

/-! ### Brackets -/

/-- V26. -/
theorem test_beginwr :
    seen (fun s => (s.trace, s.dir, s.oeN, s.ledProg)) (exec .beginwr (idle [] false)) =
      some ([.ledProg true, .dir .output, .oeN true], .output, true, true) := by decide

/-- V28. -/
theorem test_beginwr_nested : seen State.status (exec .beginwr (opened [] false [])) = some 0x04 := by decide

/-- V27. -/
theorem test_endwr_empty :
    seen (fun s => (s.trace, s.dir, s.oeN, s.ledProg)) (exec .endwr (opened [] false [])) =
      some ([.waitPage, .oeN false, .dir .input, .ledProg false], .input, false, false) := by decide

/-- V65, V72. -/
theorem test_endwr_groups :
    seen State.mem (exec .endwr (opened [] false [(0x0100, 0x11), (0x0100, 0x22)])) = some [(0x0100, 0x22)] ∧
      whyRefused (exec .endwr (opened [] false [(0x003F, 0x11), (0x0040, 0x22)])) = some .unrecognisedGroup := by
  decide

/-- V29a, V29b: no inversion (D13). -/
theorem test_beginrd :
    seen State.ledRead (exec .beginrd (idle [] false)) = some true ∧
      seen State.ledRead (exec .beginrd { idle [] false with ledRead := true }) = some true := by decide

/-- V29c. -/
theorem test_endrd : seen State.ledRead (exec .endrd { idle [] false with ledRead := true }) = some false := by decide

/-! ### BULKWR and ERASE -/

set_option maxRecDepth 20000 in
/-- V33: the pacing wait falls after the byte at `0x003F`, and the two groups are stored. -/
theorem test_bulkwr_across_pages :
    seen (fun s => (s.mem, s.trace.count .waitPage, s.trace.length))
        (exec (.bulkwr 0x003E [0x11, 0x22, 0x33, 0x44]) (idle [] false)) =
      some ([(0x003E, 0x11), (0x003F, 0x22), (0x0040, 0x33), (0x0041, 0x44)], 2, 260) := by decide

set_option maxRecDepth 20000 in
/-- V33 under the readings not adopted, and V38, V39, V41. -/
theorem test_bulkwr_stops :
    whyRefused (exec (.bulkwr 0x003E [1, 2, 3, 4])
        { idle [] false with config := { Config.default with paceRule := .byteCount } }) = some .unrecognisedGroup ∧
      seen State.status (exec (.bulkwr 0x7FFF [0x11, 0x22]) (idle [] false)) = some 0x03 ∧
      seen State.status (exec (.bulkwr 0x8000 []) (idle [] false)) = some 0x02 ∧
      seen State.status (exec (.bulkwr 0x9000 [0xAA, 0xBB]) (opened [] false [])) = some 0x02 := by decide

set_option maxRecDepth 20000 in
/-- V49, V50: `MEM[0]` only, and nothing on a protected chip. -/
theorem test_erase :
    seen (fun s => (s.mem, s.trace.length)) (exec (.erase 1) (idle [(0, 0x12), (1, 0x34)] false)) =
        some ([(1, 0x34)], 70) ∧
      seen (fun s => (s.mem, s.trace.length)) (exec (.erase 1) (idle [(0, 0x12)] true)) = some ([(0, 0x12)], 70) := by
  decide

/-- V48, V51. -/
theorem test_erase_refused :
    seen State.status (exec (.erase 0x8001) (idle [] false)) = some 0x03 ∧
      seen State.status (exec (.erase 0x0040) (opened [] false [])) = some 0x04 := by decide

/-! ### SDPEN and SDPDIS -/

set_option maxRecDepth 20000 in
/-- V55. -/
theorem test_sdpen :
    seen (fun s => (s.sdp, s.mem, s.al, s.dout, s.trace.length)) (exec .sdpen (idle [] false)) =
      some (true, [], 0x5555, 0xA0, 196) := by decide

set_option maxRecDepth 20000 in
/-- V60: `SDP_SEQ_STORES` on a chip that was unprotected. -/
theorem test_sdpen_stores :
    seen State.mem (exec .sdpen { idle [] false with config := { Config.default with sdpSeqStores := true } }) =
      some [(0x2AAA, 0x55), (0x5555, 0xA0)] := by decide

set_option maxRecDepth 20000 in
/-- V56. -/
theorem test_sdpdis :
    seen (fun s => (s.sdp, s.mem, s.dout, s.trace.length)) (exec .sdpdis (idle [] true)) =
      some (false, [], 0x20, 385) := by decide

set_option maxRecDepth 20000 in
/-- V61: stored nothing, the chip was protected before. -/
theorem test_sdpdis_stores_nothing :
    seen State.mem (exec .sdpdis { idle [] true with config := { Config.default with sdpSeqStores := true } }) =
      some [] := by decide

/-! ### Console verbs (R125 to R131) -/

set_option maxRecDepth 20000 in
/-- S2: `r 0x7FF0 32` is sixteen reads, the last of `0x7FFF`, and the caller's address ends at `0x8000` (C3). -/
theorem test_verb_read_clamps :
    expandVerb { ca := 0, readDefaultBoundary := 256, maxBurst := 256 } (.read (some 0x7FF0) (some 32)) =
      some ([.beginrd, .rdbyte 0x7FF0, .rdbyte 0x7FF1, .rdbyte 0x7FF2, .rdbyte 0x7FF3, .rdbyte 0x7FF4, .rdbyte 0x7FF5,
        .rdbyte 0x7FF6, .rdbyte 0x7FF7, .rdbyte 0x7FF8, .rdbyte 0x7FF9, .rdbyte 0x7FFA, .rdbyte 0x7FFB, .rdbyte 0x7FFC,
        .rdbyte 0x7FFD, .rdbyte 0x7FFE, .rdbyte 0x7FFF, .endrd], 0x8000) := by decide

/-- S3, S4: a data line is one bulk write; an empty line is no request. -/
theorem test_verb_dataLine :
    expandVerb { ca := 0x0100, readDefaultBoundary := 256, maxBurst := 128 } (.dataLine [0xAA, 0xBB, 0xCC]) =
        some ([.bulkwr 0x0100 [0xAA, 0xBB, 0xCC]], 0x0103) ∧
      expandVerb { ca := 0x0100, readDefaultBoundary := 256, maxBurst := 128 } (.dataLine []) = some ([], 0x0100) := by
  decide

/-! ### Witnesses: for every obligation with hypotheses, concrete inputs that meet all of them -/

/-- A bracket in which an enable sequence has been pulsed in. -/
def enabling : State := opened [] false enableGroup

/-- A bracket in which a disable sequence has been pulsed in. -/
def disabling : State := opened [] true disableGroup

/-- V69: the enable sequence reordered. -/
def reordered : List Pulse := [(0x2AAA, 0x55), (0x5555, 0xAA), (0x5555, 0xA0)]

/-- 64 pulses to one page: the largest data group. -/
def fullPage : List Pulse := List.replicate 64 (0x7FFF, 0x5A)

theorem idle_closed (mem : Memory) (sdp : Bool) : (idle mem sdp).Closed := ⟨rfl, rfl, rfl⟩
theorem idle_readable (mem : Memory) (sdp : Bool) : (idle mem sdp).Readable := ⟨idle_closed mem sdp, rfl⟩
theorem opened_writable (mem : Memory) (sdp : Bool) (g : List Pulse) : (opened mem sdp g).Writable := ⟨rfl, rfl, rfl⟩
theorem someMemory_wf : Memory.wf [(0x0100, 0xAA), (0x7FFF, 0x01)] := by decide

theorem opened_inv (g : List Pulse) : (opened [] false g).Inv :=
  ⟨rfl, rfl, rfl, rfl, nofun, by simp [opened], by simp [opened], rfl, rfl, wf_nil⟩

theorem witness_EncodeThenDecodeGivesRequest :
    WellFormed (.bulkwr 0x0100 [0xAA]) ∧ WellFormed (.bulkwr 0 (List.replicate 0xFFFF 0)) :=
  ⟨by decide, test_wellFormed_payload_of_65535⟩

theorem witness_DecodedPacketIsItsEncoding : decode [0x03, 0x01, 0x00, 0xAA, 0x07] = .ok (.wrbyte 0x0100 0xAA, 4) := by
  decide

theorem witness_StepRunsDecodedRequest :
    let s := { idle [] false with stream := [0x04, 0x02, 0x01, 0x00], rp := 1 }
    s.busy = false ∧ decode (s.stream.drop s.rp) = .ok (.rdbyte 0x0100, 3) := by decide

/-- Both sides of both bounds: `0x00`, `0x0C`, `0xFF` reserved, `0x01` and `0x0B` not. -/
theorem witness_ReservedCommandIsRefused :
    (∀ cmd ∈ ([0x00, 0x0C, 0xFF] : List Byte), cmd = 0x00 ∨ 0x0C ≤ cmd.toNat) ∧
      (∀ cmd ∈ ([0x01, 0x0B] : List Byte), ¬ (cmd = 0x00 ∨ 0x0C ≤ cmd.toNat)) ∧
      let s := { idle [] false with stream := [0x0C, 0x04] }
      s.busy = false ∧ s.stream.drop s.rp = [0x0C, 0x04] := by decide

theorem witness_StepWithoutRequest :
    ({ idle [] false with busy := true } : State).busy = true ∧
      (let s := idle [] false
       s.busy = false ∧ s.stream.drop s.rp = []) ∧
      let s := { idle [] false with stream := [0x01, 0x12] }
      s.busy = false ∧ decode (s.stream.drop s.rp) = .error .truncatedPacket := by decide

theorem witness_StepAdvancesByOnePacket : ∃ t, step { idle [] false with stream := [0x09, 0x80, 0x01] } = .next t :=
  ⟨_, rfl⟩

theorem witness_RdbyteReturnsStoredByte :
    (0x7FFF : Word).toNat ≤ 0x7FFF ∧ (idle [(0x7FFF, 0x01)] true).Readable := ⟨by decide, idle_readable _ _⟩

/-- Also where the precondition of `MemRead` fails: a group is pending although the pins are inputs. -/
theorem witness_RdbyteFrame :
    (0x0000 : Word).toNat ≤ 0x7FFF ∧
      ({ idle [] false with group := [(0, 0)] } : State).dir = .input ∧
      ¬ ({ idle [] false with group := [(0, 0)] } : State).Readable :=
  ⟨by decide, rfl, fun h => absurd h.noGroup (by decide)⟩

theorem witness_WrbyteJoinsGroup : (0x7FFF : Word).toNat ≤ 0x7FFF ∧ (opened [] true [(0, 1)]).Writable :=
  ⟨by decide, opened_writable _ _ _⟩

theorem witness_WrbyteOutsideContractStops :
    (0x0100 : Word).toNat ≤ 0x7FFF ∧ ({ opened [] false [] with oeN := false } : State).dir = .output ∧
      ¬ ({ opened [] false [] with oeN := false } : State).Writable :=
  ⟨by decide, rfl, fun h => absurd h.oeHigh (by decide)⟩

theorem witness_BeginwrOpensBracket : (idle [] false).dir = .input ∧ (opened [] false []).dir ≠ .input := by decide

theorem witness_EndwrClosesEmptyBracket : (opened [] false []).dir = .output ∧ (opened [] false []).group = [] := by
  decide

/-- One pulse, and 64 of them. -/
theorem witness_EndwrCommitsDataGroup :
    (opened [] true fullPage).dir = .output ∧ DataGroup [(0x5555, 0xAA)] ∧ DataGroup fullPage ∧ Memory.wf [] := by
  refine ⟨rfl, ?_, ?_, wf_nil⟩
  · simp [DataGroup]
  · refine ⟨by decide, by decide, fun p hp q hq => ?_⟩
    rw [List.eq_of_mem_replicate hp, List.eq_of_mem_replicate hq]

theorem witness_EndwrRecognisesEnableSequence :
    enabling.dir = .output ∧ enabling.group = enableGroup ∧ enabling.mem.wf := ⟨rfl, rfl, wf_nil⟩

theorem witness_EndwrRecognisesDisableSequence :
    disabling.dir = .output ∧ disabling.group = disableGroup ∧ disabling.mem.wf := ⟨rfl, rfl, wf_nil⟩

theorem reordered_notData : ¬ DataGroup reordered := by
  rintro ⟨-, -, h⟩
  exact absurd (h (0x2AAA, 0x55) (by decide) (0x5555, 0xAA) (by decide)) (by decide)

theorem reordered_madeFrom : MadeFrom reordered enableGroup := ⟨enableGroup, .refl _, by decide⟩

theorem witness_DefectiveSequenceKeepsProtection :
    let s := opened [] true reordered
    s.dir = .output ∧ s.mem.wf ∧ s.group ≠ [] ∧ s.group ≠ enableGroup ∧ s.group ≠ disableGroup ∧ ¬ DataGroup s.group ∧
      MadeFrom s.group enableGroup :=
  ⟨rfl, wf_nil, by decide, by decide, by decide, reordered_notData, reordered_madeFrom⟩

/-- V72. -/
theorem witness_UnrecognisedGroupIsRefused :
    let s := opened [] false [(0x003F, 0x11), (0x0040, 0x22)]
    s.dir = .output ∧ s.group ≠ [] ∧ ¬ DataGroup s.group ∧ ¬ MadeFrom s.group enableGroup ∧
      ¬ MadeFrom s.group disableGroup := by
  have no : ∀ table : List Pulse, (0x003F, 0x11) ∉ table →
      ¬ MadeFrom [(0x003F, 0x11), (0x0040, 0x22)] table := by
    rintro table ht ⟨l, hs, hp⟩
    exact ht (hs.subset (hp.mem_iff.mpr (by decide)))
  refine ⟨rfl, by decide, ?_, no _ (by decide), no _ (by decide)⟩
  rintro ⟨-, -, h⟩
  exact absurd (h (0x003F, 0x11) (by decide) (0x0040, 0x22) (by decide)) (by decide)

/-- V33, where `next_address` paces and `byte_count` does not, and the boundary values of the three readings. -/
theorem witness_PacingPredicateReadings :
    pace .nextAddress 0x0040 2 = true ∧ pace .nextAddress 0x003F 64 = false ∧
      pace .byteCount 0x0040 2 = false ∧ pace .byteCount 0x003F 64 = true ∧
      pace .writtenAddress 0x0041 2 = true ∧ pace .writtenAddress 0x0040 2 = false := by decide

theorem witness_PacingReadingsAgreeWhenAligned : (0x7FC0 : Word).toNat % 64 = 0 := by decide

/-- No byte, and the last byte of the array; both protection states. -/
theorem witness_BulkwrStoresPayload :
    (0x7FFF : Word).toNat ≤ 0x7FFF ∧ (0x7FFF : Word).toNat + ([] : List Byte).length ≤ 0x8000 ∧
      (0x7FFF : Word).toNat + ([0x5A] : List Byte).length ≤ 0x8000 ∧
      (idle [(0x0100, 0xAA), (0x7FFF, 0x01)] false).Closed ∧ (idle [(0x0100, 0xAA), (0x7FFF, 0x01)] true).Closed ∧
      Memory.wf [(0x0100, 0xAA), (0x7FFF, 0x01)] ∧ (idle [] false).config.paceRule = .nextAddress :=
  ⟨by decide, by decide, by decide, idle_closed _ _, idle_closed _ _, someMemory_wf, rfl⟩

theorem witness_BulkwrTraceIsPaced :
    (0x7FFF : Word).toNat ≤ 0x7FFF ∧ (0x7FFF : Word).toNat + ([0x5A] : List Byte).length ≤ 0x8000 ∧
      (idle [] true).dir = .input ∧ (idle [] true).config.paceRule = .nextAddress ∧
      ∃ t, exec (.bulkwr 0x7FFF [0x5A]) (idle [] true) = .next t :=
  ⟨by decide, by decide, rfl, rfl, _, exec_bulkwr_run (by decide) (by decide) (idle_closed _ _) rfl⟩

/-- The whole array, on either chip. -/
theorem witness_EraseFillsRange :
    (0x8000 : Word).toNat ≤ 0x8000 ∧ (idle [(0x0100, 0xAA), (0x7FFF, 0x01)] false).Closed ∧
      Memory.wf [(0x0100, 0xAA), (0x7FFF, 0x01)] ∧ (idle [] false).config.paceRule = .nextAddress :=
  ⟨by decide, idle_closed _ _, someMemory_wf, rfl⟩

theorem witness_ZeroLengthTouchesNothing :
    (0x7FFF : Word).toNat ≤ 0x7FFF ∧ (idle [] false).dir = .input ∧ (idle [] false).group = [] := by decide

theorem witness_SdpenLocksChip : (idle [] false).Closed ∧ (idle [] false).mem.wf := ⟨idle_closed _ _, wf_nil⟩

theorem witness_SdpdisUnlocksChip : (idle [] true).Closed ∧ (idle [] true).mem.wf := ⟨idle_closed _ _, wf_nil⟩

theorem witness_RawSequenceEqualsSequencer : (idle [] true).Closed ∧ (idle [] true).mem.wf := ⟨idle_closed _ _, wf_nil⟩

theorem witness_ControllerNeverSeesChip : ∀ a : Word, Instr.sdpen ≠ .rdbyte a := nofun

/-- An `ENDWR` on the enable sequence; `test_sdpen` and `test_sdpdis` show `SDP` change by the sequencer. -/
theorem witness_ProtectionChangesOnlyBySequence :
    enabling.Inv ∧ ∃ t, exec .endwr enabling = .next t ∧ t.sdp ≠ enabling.sdp :=
  ⟨opened_inv _, _, exec_endwr_of_commit rfl (commitGroup_enable rfl), by decide⟩

/-- Every cause, each at its bound, and the priority of R227. -/
theorem witness_RefusalLeavesNoMark :
    refusalStatus (.setaddr 0x8000) .output = some 0x02 ∧ refusalStatus (.setaddr 0x7FFF) .output = none ∧
      refusalStatus (.rdbyte 0x7FFF) .output = some 0x04 ∧ refusalStatus (.wrbyte 0x8000 0) .input = some 0x02 ∧
      refusalStatus (.wrbyte 0x7FFF 0) .input = some 0x04 ∧ refusalStatus .beginwr .output = some 0x04 ∧
      refusalStatus .endwr .input = some 0x04 ∧ refusalStatus (.bulkwr 0x8000 []) .output = some 0x02 ∧
      refusalStatus (.bulkwr 0x7FFF [1, 2]) .output = some 0x03 ∧ refusalStatus (.bulkwr 0x7FFF [1]) .input = none ∧
      refusalStatus (.erase 0x8001) .output = some 0x03 ∧ refusalStatus (.erase 0x8000) .input = none ∧
      refusalStatus .sdpen .output = some 0x04 ∧ refusalStatus .sdpdis .output = some 0x04 := by decide

theorem witness_CompletionRecordOfRequest :
    (∃ t, exec (.rdbyte 0x0100) (idle [] false) = .next t) ∧ (∃ t, exec (.rdbyte 0x8000) (idle [] false) = .next t) ∧
      ∃ t, exec (.setaddr 0x0100) (idle [] false) = .next t :=
  ⟨⟨_, exec_rdbyte (by decide) rfl⟩, ⟨_, rfl⟩, _, exec_setaddr (by decide) _⟩

theorem witness_OperandRegistersLoaded :
    (∃ t, exec (.wrbyte 0x0100 0xAA) (opened [] false []) = .next t) ∧
      refusalStatus (.wrbyte 0x0100 0xAA) (opened [] false []).dir = none ∧
      (∃ t, exec (.erase 0x8000) (idle [] false) = .next t) ∧
      refusalStatus (.erase 0x8000) (idle [] false).dir = none :=
  ⟨⟨_, by rw [exec_wrbyte (by decide) _ rfl, writeByte_eq _ _ (by decide), andThen_next]⟩, by decide,
    ⟨_, exec_erase_run (by decide) (idle_closed _ _) rfl⟩, by decide⟩

theorem witness_ControlBitsWrittenByBracketsOnly :
    (∃ t, exec .beginrd (idle [] false) = .next t) ∧ (∃ t, exec (.setaddr 0) (opened [] false []) = .next t) :=
  ⟨⟨_, rfl⟩, _, exec_setaddr (by decide) _⟩

theorem witness_NoCommitWithoutPageWait :
    (∃ t, exec .beginwr (idle [] false) = .next t) ∧
      Instr.beginwr.op ∈ [.setaddr, .rdbyte, .wrbyte, .beginrd, .endrd, .beginwr] := ⟨⟨_, rfl⟩, by decide⟩

theorem witness_LatchBitFifteenStaysClear : ∃ t, exec (.setaddr 0x7FFF) (idle [] false) = .next t :=
  ⟨_, exec_setaddr (by decide) _⟩

theorem witness_DataPinsHaveNoValueInContention :
    (opened [] false []).Writable ∧ (idle [(0x0000, 0x5A)] false).Readable := ⟨opened_writable _ _ _, idle_readable _ _⟩

theorem witness_HostResetKeepsDevice :
    ({ idle [] true with busy := true } : State).busy = true ∧ (opened [(0x0000, 0x5A)] true []).busy = false := by decide

theorem witness_StepKeepsInvariant :
    ({ opened [] false [] with stream := [0x07] } : State).Inv ∧
      ∃ t, step { opened [] false [] with stream := [0x07] } = .next t :=
  ⟨⟨rfl, rfl, rfl, rfl, nofun, by simp [opened], by simp [opened], rfl, rfl, wf_nil⟩, _, rfl⟩

/-- A state of the invariant whose next `ENDWR` meets the last alternative. -/
theorem witness_StepsStopOnlyByIllFormedGroups :
    (opened [] false [(0x003F, 0x11), (0x0040, 0x22)]).Inv ∧
      (opened [] false [(0x003F, 0x11), (0x0040, 0x22)]).config.paceRule = .nextAddress := ⟨opened_inv _, rfl⟩

theorem witness_BulkwrThenRdbyteReadsBack :
    (0x0100 : Word).toNat ≤ 0x7FFF ∧ (0x0100 : Word).toNat + ([0xAA, 0xBB, 0xCC] : List Byte).length ≤ 0x8000 ∧
      (idle [] false).Closed ∧ (idle [] false).mem.wf ∧ (idle [] false).sdp = false ∧
      (idle [] false).config.paceRule = .nextAddress :=
  ⟨by decide, by decide, idle_closed _ _, wf_nil, rfl, rfl⟩

/-- A caller at the end of the array (C3) asks for a default read, which is of no byte. -/
theorem witness_VerbRequestsAreNeverRefused :
    let c : Caller := { ca := 0x8000, readDefaultBoundary := 256, maxBurst := 256 }
    c.ca ≤ 0x8000 ∧ expandVerb c (.read none none) = some ([.beginrd, .endrd], 0x8000) := by decide

end Sys2Proof.Tests
end

section
/-! SUPPORT. What every request and every step can do and keep: refused or executed, its frame, its packet, the invariant
of R41, the protection latch, and where a run stops. -/

namespace Sys2Proof.Machine

/-! ### The refusal tests in the words of R223 to R225 -/

theorem addrOutOfRange_iff {a : Word} : addrOutOfRange a = true ↔ 0x7FFF < a.toNat := by
  rw [addrOutOfRange_eq, decide_eq_true_iff]

theorem spanOutOfRange_iff {a : Word} {n : Nat} : spanOutOfRange a n = true ↔ 0x8000 < a.toNat + n :=
  decide_eq_true_iff

theorem eraseOutOfRange_iff {n : Word} : eraseOutOfRange n = true ↔ 0x8000 < n.toNat := decide_eq_true_iff

theorem wrOpen_iff {s : State} : wrOpen s = true ↔ ¬ s.dir = .input := by
  unfold wrOpen
  cases s.dir <;> decide

theorem not_wrOpen_iff {s : State} : (!wrOpen s) = true ↔ ¬ s.dir = .output := by
  unfold wrOpen
  cases s.dir <;> decide

/-- R226, R229: a request that a cause of the refusal table applies to completes with that cause's `STATUS` alone. -/
theorem exec_refused {i : Instr} {s : State} {c : Byte} (h : refusalStatus i s.dir = some c) :
    exec i s = .next (completeWith c false s) := by
  cases i with
  | beginrd | endrd => cases h
  | _ =>
    simp only [refusalStatus] at h
    simp only [exec, execSetaddr, execRdbyte, execWrbyte, execBeginwr, execEndwr, execBulkwr, execErase, execSdpen,
      execSdpdis, addrOutOfRange_iff, spanOutOfRange_iff, eraseOutOfRange_iff, wrOpen_iff, not_wrOpen_iff, ite_not]
    split_ifs at h ⊢ <;> exact Option.some.inj h ▸ rfl

/-- Everything a request that answers a next state can do: it is refused with its cause, or executed. -/
theorem exec_cases {i : Instr} {s t : State} (h : exec i s = .next t) :
    (∃ c, refusalStatus i s.dir = some c ∧ t = completeWith c false s) ∨ Executed i s t := by
  cases hr : refusalStatus i s.dir with
  | none => exact .inr (executed_of_exec h hr)
  | some c =>
    rw [exec_refused hr] at h
    injection h with h
    exact .inl ⟨c, rfl, h.symm⟩

/-! ### What a write frame keeps -/

section
variable {s t : State} (h : WriteFrame s t)
include h

theorem WriteFrame.op : t.op = s.op := (congrArg State.op h :)
theorem WriteFrame.addr : t.addr = s.addr := (congrArg State.addr h :)
theorem WriteFrame.len : t.len = s.len := (congrArg State.len h :)
theorem WriteFrame.wdata : t.wdata = s.wdata := (congrArg State.wdata h :)
theorem WriteFrame.rdata : t.rdata = s.rdata := (congrArg State.rdata h :)
theorem WriteFrame.ledRead : t.ledRead = s.ledRead := (congrArg State.ledRead h :)
theorem WriteFrame.stream : t.stream = s.stream := (congrArg State.stream h :)
theorem WriteFrame.rp : t.rp = s.rp := (congrArg State.rp h :)
theorem WriteFrame.config : t.config = s.config := (congrArg State.config h :)

end

theorem writeRun_wait_frame {p : List Byte} {s u w : State} (hu : writeRun p 0 s = .next u)
    (hw : waitPage u = .next w) : WriteFrame s w :=
  (writeRun_frame hu).trans (waitPage_frame hw)

theorem writeTable_wait_frame {table : List (Word × Byte)} {s u w : State} (hu : writeTable table 0 s = .next u)
    (hw : waitPage u = .next w) : WriteFrame s w :=
  (writeTable_frame hu).trans (waitPage_frame hw)

/-- R24, R9: an executed request moves nothing on the host's side and no open parameter. -/
theorem Executed.keeps_host {i : Instr} {s t : State} (h : Executed i s t) :
    t.rp = s.rp ∧ t.stream = s.stream ∧ t.config = s.config := by
  cases h with
  | setaddr | rdbyte | wrbyte | beginrd | endrd | beginwr => exact ⟨rfl, rfl, rfl⟩
  | endwr _ hw =>
    have hf := waitPage_frame hw
    exact ⟨hf.rp, hf.stream, hf.config⟩
  | bulkwr _ _ _ hu hw | erase _ _ hu hw =>
    have hf := writeRun_wait_frame hu hw
    exact ⟨hf.rp, hf.stream, hf.config⟩
  | sdpen _ hu hw | sdpdis _ hu hw =>
    have hf := writeTable_wait_frame hu hw
    exact ⟨hf.rp, hf.stream, hf.config⟩

theorem exec_keeps_host {i : Instr} {s t : State} (h : exec i s = .next t) :
    t.rp = s.rp ∧ t.stream = s.stream ∧ t.config = s.config := by
  rcases exec_cases h with ⟨c, -, rfl⟩ | h
  · exact ⟨rfl, rfl, rfl⟩
  · exact h.keeps_host

end Sys2Proof.Machine

namespace Sys2Proof

/-! ### What the decoder accepts -/

theorem decodeWord_ok {f : Word → Instr} {bs : List Byte} {i : Instr} {n : Nat}
    (h : decodeWord f bs = .ok (i, n)) : (∃ a, i = f a) ∧ n = 3 := by
  unfold decodeWord at h
  split at h <;> cases h
  exact ⟨⟨_, rfl⟩, rfl⟩

theorem decodeFad_ok {f : Word → Byte → Instr} {bs : List Byte} {i : Instr} {n : Nat}
    (h : decodeFad f bs = .ok (i, n)) : (∃ a v, i = f a v) ∧ n = 4 := by
  unfold decodeFad at h
  split at h <;> cases h
  exact ⟨⟨_, _, rfl⟩, rfl⟩

theorem decodeFal_ok {f : Word → List Byte → Instr} {bs : List Byte} {i : Instr} {n : Nat}
    (h : decodeFal f bs = .ok (i, n)) :
    (∃ a p, i = f a p) ∧ n = 5 + (word16 (bs.getD 2 0) (bs.getD 3 0)).toNat := by
  unfold decodeFal at h
  split at h
  · split at h <;> cases h
    exact ⟨⟨_, _, rfl⟩, rfl⟩
  · cases h

/-- A packet's request is one of its operation, and its length is the one its header fixes (R105, R111). -/
theorem decodeOperands_ok {o : Op} {bs : List Byte} {i : Instr} {n : Nat} (h : decodeOperands o bs = .ok (i, n)) :
    i.op = o ∧ n = packetLength (o.cmd :: bs) := by
  cases o with
  | setaddr | rdbyte | erase =>
    obtain ⟨⟨a, rfl⟩, rfl⟩ := decodeWord_ok h
    exact ⟨rfl, rfl⟩
  | wrbyte =>
    obtain ⟨⟨a, v, rfl⟩, rfl⟩ := decodeFad_ok h
    exact ⟨rfl, rfl⟩
  | bulkwr =>
    obtain ⟨⟨a, p, rfl⟩, rfl⟩ := decodeFal_ok h
    exact ⟨rfl, rfl⟩
  | beginrd | endrd | beginwr | endwr | sdpen | sdpdis =>
    cases h
    exact ⟨rfl, rfl⟩

/-- Accepted bytes begin with the `CMD` of the request, and the packet length is the one they fix (R101, R106, R111). -/
theorem decode_ok {bs : List Byte} {i : Instr} {n : Nat} (h : decode bs = .ok (i, n)) :
    (∃ rest, bs = i.op.cmd :: rest) ∧ n = packetLength bs := by
  unfold decode at h
  split at h
  · cases h
  · split at h
    · cases h
    · next hc =>
      obtain rfl := cmd_of_decodeCmd hc
      obtain ⟨rfl, rfl⟩ := decodeOperands_ok h
      exact ⟨⟨_, rfl⟩, rfl⟩

/-- The packet of an `ENDWR` is its `CMD` byte (R105). -/
theorem decode_endwr_length {bs : List Byte} {n : Nat} (h : decode bs = .ok (.endwr, n)) : n = 1 := by
  obtain ⟨⟨rest, rfl⟩, rfl⟩ := decode_ok h
  rfl

/-- The operand bytes of an operation are never taken for the end of the stream or for a reserved `CMD`. -/
theorem decodeOperands_error {o : Op} {bs : List Byte} {e : DecodeError} (h : decodeOperands o bs = .error e) :
    e = .truncatedPacket := by
  cases o with
  | setaddr | rdbyte | erase =>
    simp only [decodeOperands, decodeWord] at h
    split at h <;> cases h
    rfl
  | wrbyte =>
    simp only [decodeOperands, decodeFad] at h
    split at h <;> cases h
    rfl
  | bulkwr =>
    simp only [decodeOperands, decodeFal] at h
    split at h
    · split at h <;> cases h
      rfl
    · cases h
      rfl
  | beginrd | endrd | beginwr | endwr | sdpen | sdpdis => cases h

theorem decode_noRequest {bs : List Byte} (h : decode bs = .error .noRequest) : packetLength bs = 0 := by
  cases bs with
  | nil => rfl
  | cons cmd bs =>
    simp only [decode] at h
    split at h
    · cases h
    · cases decodeOperands_error h

theorem decode_reservedCmd {bs : List Byte} {c : Byte} (h : decode bs = .error (.reservedCmd c)) :
    packetLength bs = 1 := by
  cases bs with
  | nil => cases h
  | cons cmd bs =>
    simp only [decode] at h
    split at h
    · next hc => simp only [packetLength, hc]
    · cases decodeOperands_error h

end Sys2Proof

namespace Sys2Proof.Machine

/-! ### What a step can do -/

/-- Everything a step that answers a next state can do: idle at the end of the stream, refuse a reserved `CMD`, or run
the request at `RP`, its packet consumed. -/
theorem step_cases {s t : State} (h : step s = .next t) :
    (decode (pending s) = .error .noRequest ∧ t = s) ∨
      (∃ c, decode (pending s) = .error (.reservedCmd c) ∧
        t = completeWith ErrCode.errOpcode.status false (consume 1 s)) ∨
      ∃ i n, decode (pending s) = .ok (i, n) ∧ exec i (consume n s) = .next t := by
  unfold step at h
  split at h
  · cases h
  · split at h
    · next i n hd => exact .inr (.inr ⟨i, n, hd, h⟩)
    · next e hd =>
      cases e with
      | noRequest =>
        injection h with h
        exact .inl ⟨hd, h.symm⟩
      | truncatedPacket => cases h
      | reservedCmd c =>
        injection h with h
        exact .inr (.inl ⟨c, hd, h.symm⟩)

/-! ### The invariant of R41 -/

theorem State.Inv.pinsIdle {s : State} (h : s.Inv) : PinsIdle s :=
  ⟨h.weHigh, h.rclkLow, h.srclkLow, h.tmrWeIdle, h.tmrPageIdle, h.memWf⟩

theorem State.Inv.closed {s : State} (h : s.Inv) (hd : s.dir = .input) : s.Closed :=
  ⟨hd, h.weHigh, h.groupClosed hd⟩

theorem State.Inv.writable {s : State} (h : s.Inv) (hd : s.dir = .output) : s.Writable :=
  ⟨hd, h.oeOpen.mpr hd, h.weHigh⟩

/-- No clause of R41 speaks of the position in the stream. -/
theorem State.Inv.consume {s : State} (h : s.Inv) (n : Nat) : (consume n s).Inv := { h with }

/-- A completion record clears `BUSY` and touches no other clause of R41. -/
theorem State.Inv.completeWith {s : State} (h : s.Inv) (st : Byte) (r : Bool) : (completeWith st r s).Inv :=
  { h with idle := rfl }

theorem waitPage_group {s t : State} (h : waitPage s = .next t) : t.group = [] :=
  congrArg State.group (waitPage_cases h)

/-- R183: a bracket closed on idle pins and an empty group is in the invariant, whatever else the state holds. -/
theorem inv_completed_closeBracket {w : State} (h : PinsIdle w) (hg : w.group = []) :
    (completeWith statusOk false (closeBracket w)).Inv :=
  { h with idle := rfl, groupClosed := fun _ => hg, oeOpen := ⟨nofun, nofun⟩, ledOpen := ⟨nofun, nofun⟩ }

theorem PinsIdle.forgetCursor {s : State} (h : PinsIdle s) : PinsIdle (forgetCursor s) := { h with }

theorem PinsIdle.forgetIndex {s : State} (h : PinsIdle s) : PinsIdle (forgetIndex s) := { h with }

/-- Every executed request keeps the invariant: the composite operations through the idle pins of their loops. -/
theorem Executed.keeps_inv {i : Instr} {s t : State} (h : Executed i s t) (hs : s.Inv) : t.Inv := by
  have hi := hs.pinsIdle
  cases h with
  | setaddr | rdbyte => exact { hs with idle := rfl, rclkLow := rfl, srclkLow := rfl }
  | wrbyte _ hw =>
    have hg (hd : s.dir = .input) : False := nomatch hw.dirOut.symm.trans hd
    exact { hs with
      idle := rfl, weHigh := rfl, rclkLow := rfl, srclkLow := rfl, tmrWeIdle := rfl
      groupClosed := fun hd => (hg hd).elim }
  | beginrd | endrd => exact { hs with idle := rfl }
  | beginwr =>
    exact { hs with
      idle := rfl, groupClosed := nofun, oeOpen := iff_of_true rfl rfl, ledOpen := iff_of_true rfl rfl }
  | endwr _ hw =>
    have hidle : PinsIdle (accept .endwr s) := { hi with }
    exact inv_completed_closeBracket (waitPage_idle hw hidle) (waitPage_group hw)
  | bulkwr _ _ _ hu hw | erase _ _ hu hw =>
    have hidle := waitPage_idle hw (writeRun_idle hu { hi with })
    have hg := waitPage_group hw
    exact inv_completed_closeBracket hidle.forgetCursor hg
  | sdpen _ hu hw | sdpdis _ hu hw =>
    have hidle := waitPage_idle hw (writeTable_idle hu { hi with })
    have hg := waitPage_group hw
    exact inv_completed_closeBracket hidle.forgetIndex hg

theorem exec_keeps_inv {i : Instr} {s t : State} (h : exec i s = .next t) (hs : s.Inv) : t.Inv := by
  rcases exec_cases h with ⟨c, -, rfl⟩ | h
  · exact hs.completeWith c false
  · exact h.keeps_inv hs

/-! ### The protection latch -/

theorem classifyGroup_enable : classifyGroup enableGroup = .enable := by decide

theorem classifyGroup_disable : classifyGroup disableGroup = .disable := by decide

theorem classifyGroup_eq_enable {g : List Pulse} (h : classifyGroup g = .enable) : g = enableGroup := by
  unfold classifyGroup at h
  split_ifs at h with h0 he
  exact he.trans enableGroup_eq

theorem classifyGroup_eq_disable {g : List Pulse} (h : classifyGroup g = .disable) : g = disableGroup := by
  unfold classifyGroup at h
  split_ifs at h with h0 he hd
  exact hd.trans disableGroup_eq

/-- R81: a group with no meaning is none of the other cases of R75, in their words. -/
theorem classifyGroup_eq_other {g : List Pulse} (h : classifyGroup g = .other) :
    g ≠ [] ∧ ¬ DataGroup g ∧ ¬ MadeFrom g enableGroup ∧ ¬ MadeFrom g disableGroup := by
  unfold classifyGroup at h
  split_ifs at h with h0 he hd hg hp
  rw [enableGroup_eq, disableGroup_eq, Bool.or_eq_true, isPartOf_iff, isPartOf_iff, not_or] at hp
  rw [dataGroup_iff] at hg
  exact ⟨h0, hg, hp⟩

/-- R75 to R80: what a commit leaves in `SDP`. -/
theorem commitGroup_sdp {s t : State} (h : commitGroup s = .next t) :
    t.sdp = if s.group = enableGroup then true else if s.group = disableGroup then false else s.sdp := by
  split_ifs with he hd
  · rw [commitGroup_enable (he ▸ classifyGroup_enable)] at h
    cases h
    rfl
  · rw [commitGroup_disable (hd ▸ classifyGroup_disable)] at h
    cases h
    rfl
  · obtain ⟨-, ⟨-, -, hsdp, -⟩ | ⟨hk, -⟩ | ⟨hk, -⟩ | ⟨-, -, hsdp, -⟩ | ⟨-, -, hsdp, -⟩⟩ := commitGroup_cases h
    · exact hsdp
    · exact absurd (classifyGroup_eq_enable hk) he
    · exact absurd (classifyGroup_eq_disable hk) hd
    · exact hsdp
    · exact hsdp

theorem waitPage_sdp {s t : State} (h : waitPage s = .next t) :
    t.sdp = if s.group = enableGroup then true else if s.group = disableGroup then false else s.sdp := by
  rw [waitPage_eq] at h
  have hsdp := commitGroup_sdp h
  exact hsdp

/-- The pulses of a group stand at ascending adjacent addresses, and the address lines at cursor `c` go on from the last
one. A write run keeps its group so under every reading of the pacing rule (R176). -/
structure AscendingTo (g : List Pulse) (c : Word) : Prop where
  adjacent : g.IsChain fun p q => q.1 = p.1 + 1
  reaches : ∀ p ∈ g.getLast?, addrLines c = p.1 + 1

theorem ascendingTo_nil (c : Word) : AscendingTo [] c := ⟨.nil, by simp⟩

theorem addrLines_succ (c : Word) : addrLines (c + 1) = addrLines c + 1 := by
  apply BitVec.eq_of_toNat_eq
  simp [addrLines, BitVec.extractLsb'_toNat, BitVec.toNat_add]

/-- One more byte at the cursor. -/
theorem AscendingTo.snoc {g : List Pulse} {c : Word} (h : AscendingTo g c) (v : Byte) :
    AscendingTo (g ++ [(addrLines c, v)]) (c + 1) where
  adjacent := List.isChain_append.mpr ⟨h.adjacent, .singleton _, by simpa using h.reaches⟩
  reaches := by simpa using addrLines_succ c

/-- Both sequences begin at `0x5555` and go on at `0x2AAA`, so neither is ascending. -/
theorem AscendingTo.ne_sequence {g : List Pulse} {c : Word} (h : AscendingTo g c) :
    g ≠ enableGroup ∧ g ≠ disableGroup := by
  constructor <;> rintro rfl
  · exact absurd (List.isChain_cons_cons.mp h.adjacent).1 (by decide)
  · exact absurd (List.isChain_cons_cons.mp h.adjacent).1 (by decide)

theorem waitPage_sdp_of_ascending {s t : State} {c : Word} (h : waitPage s = .next t) (hg : AscendingTo s.group c) :
    t.sdp = s.sdp := by
  rw [waitPage_sdp h, if_neg hg.ne_sequence.1, if_neg hg.ne_sequence.2]

/-- A write run never changes `SDP`, whatever the pacing rule, and leaves an ascending group. -/
theorem writeRun_sdp {p : List Byte} {i : Nat} {s t : State} (h : writeRun p i s = .next t)
    (hg : AscendingTo s.group s.cur) : t.sdp = s.sdp ∧ AscendingTo t.group t.cur := by
  induction p generalizing i s with
  | nil =>
    cases h
    exact ⟨rfl, hg⟩
  | cons v p ih =>
    obtain ⟨u, -, hu, hrest⟩ := writeRun_cons h
    have hwrote : AscendingTo (wroteOne v s).group (wroteOne v s).cur := hg.snoc v
    have hstep : u.sdp = s.sdp ∧ AscendingTo u.group u.cur := by
      rcases paceWait_cases hu with ⟨-, hu⟩ | ⟨-, rfl⟩
      · have hsdp := waitPage_sdp_of_ascending hu hwrote
        exact ⟨hsdp, waitPage_group hu ▸ ascendingTo_nil _⟩
      · exact ⟨rfl, hwrote⟩
    obtain ⟨hsdp, hasc⟩ := ih hrest hstep.2
    exact ⟨hsdp.trans hstep.1, hasc⟩

/-- R176, R178: neither a bulk write nor an erase changes `SDP`. -/
theorem writeRun_wait_sdp {p : List Byte} {s u w : State} (hg : s.group = []) (hu : writeRun p 0 s = .next u)
    (hw : waitPage u = .next w) : w.sdp = s.sdp := by
  obtain ⟨hsdp, hasc⟩ := writeRun_sdp hu (hg ▸ ascendingTo_nil _)
  exact (waitPage_sdp_of_ascending hw hasc).trans hsdp

/-- A table walk from a closed bracket completes and leaves the table's pulses as the group (R202, R203). -/
theorem writeTable_of_closed (table : List (Word × Byte)) (last : Word × Byte) {s : State} (hs : s.Closed) :
    ∃ u, writeTable (table ++ [last]) 0 (beginWrite s) = .next u ∧ u.group = (table ++ [last]).map pulseOf := by
  have hc : pulseInContract (beginWrite s) = true := pulseInContract_of_writable ⟨rfl, rfl, hs.weHigh⟩
  refine ⟨_, writeTable_run table last 0 hc, ?_⟩
  show s.group ++ _ = _
  rw [hs.noGroup, List.nil_append]

theorem writeTable_enable {s : State} (hs : s.Closed) :
    ∃ u, writeTable sdpEnTable 0 (beginWrite s) = .next u ∧ u.group = enableGroup := by
  rw [← enableGroup_eq]
  exact writeTable_of_closed (sdpEnTable.take 2) (0x5555, 0xA0) hs

theorem writeTable_disable {s : State} (hs : s.Closed) :
    ∃ u, writeTable sdpDisTable 0 (beginWrite s) = .next u ∧ u.group = disableGroup := by
  rw [← disableGroup_eq]
  exact writeTable_of_closed (sdpDisTable.take 5) (0x5555, 0x20) hs

theorem State.Closed.accept {s : State} (h : s.Closed) (o : Op) : (accept o s).Closed :=
  ⟨h.dirIn, h.weHigh, h.noGroup⟩

/-! ### Which steps stop -/

theorem issueSequence_next {table : List (Word × Byte)} {s u : State} (hu : writeTable table 0 (beginWrite s) = .next u)
    (hg : classifyGroup u.group ≠ .other) : ∃ t, issueSequence table s = .next t := by
  obtain ⟨w, hw⟩ := commitGroup_next (s := pageWaited u) hg
  refine ⟨forgetIndex (closeBracket w), ?_⟩
  rw [issueSequence, hu, andThen_next, endWrite_eq, waitPage_eq, hw]
  rfl

theorem exec_sdpen_next {s : State} (hs : s.Closed) : ∃ t, exec .sdpen s = .next t := by
  obtain ⟨u, hu, hg⟩ := writeTable_enable (hs.accept .sdpen)
  obtain ⟨t, ht⟩ := issueSequence_next hu (by rw [hg, classifyGroup_enable]; decide)
  exact ⟨_, by rw [exec_sdpen hs.dirIn, ht, andThen_next]⟩

theorem exec_sdpdis_next {s : State} (hs : s.Closed) : ∃ t, exec .sdpdis s = .next t := by
  obtain ⟨u, hu, hg⟩ := writeTable_disable (hs.accept .sdpdis)
  obtain ⟨t, ht⟩ := issueSequence_next hu (by rw [hg, classifyGroup_disable]; decide)
  exact ⟨_, by rw [exec_sdpdis hs.dirIn, ht, andThen_next]⟩

/-- In an open bracket `ENDWR` completes unless its group has no meaning (R75, R81). -/
theorem exec_endwr_next_or_refused {s : State} (hd : s.dir = .output) :
    (∃ t, exec .endwr s = .next t) ∨
      (exec .endwr s = .refused .unrecognisedGroup ∧ classifyGroup s.group = .other) := by
  by_cases ho : classifyGroup s.group = .other
  · refine .inr ⟨?_, ho⟩
    rw [exec_endwr hd, endWrite_eq, waitPage_eq, commitGroup_other (s := pageWaited (accept .endwr s)) ho]
    rfl
  · obtain ⟨w, hw⟩ := commitGroup_next (s := pageWaited (accept .endwr s)) ho
    exact .inl ⟨_, exec_endwr_of_commit hd hw⟩

/-- Under `next_address` a request from a state of the invariant completes, unless it is an `ENDWR` whose group has no
meaning (R180, R81). -/
theorem exec_next_or_refused {s : State} (hs : s.Inv) (hp : s.config.paceRule = .nextAddress) (i : Instr) :
    (∃ t, exec i s = .next t) ∨
      (i = .endwr ∧ exec i s = .refused .unrecognisedGroup ∧ s.dir = .output ∧ classifyGroup s.group = .other) := by
  cases hr : refusalStatus i s.dir with
  | some c => exact .inl ⟨_, exec_refused hr⟩
  | none =>
    cases i with
    | setaddr a => exact .inl ⟨_, exec_setaddr (refusalStatus_setaddr hr) s⟩
    | rdbyte a => exact .inl ⟨_, exec_rdbyte (refusalStatus_rdbyte hr).1 (refusalStatus_rdbyte hr).2⟩
    | wrbyte a v =>
      obtain ⟨ha, hd⟩ := refusalStatus_wrbyte hr
      have hc := pulseInContract_of_writable (hs.writable hd)
      exact .inl ⟨_, by rw [exec_wrbyte ha v hd, writeByte_eq a v (by exact hc), andThen_next]⟩
    | beginrd => exact .inl ⟨_, rfl⟩
    | endrd => exact .inl ⟨_, rfl⟩
    | beginwr => exact .inl ⟨_, exec_beginwr (refusalStatus_beginwr hr)⟩
    | endwr =>
      have hd := refusalStatus_endwr hr
      exact (exec_endwr_next_or_refused hd).imp_right fun h => ⟨rfl, h.1, hd, h.2⟩
    | bulkwr a p =>
      obtain ⟨ha, hn, hd⟩ := refusalStatus_bulkwr hr
      exact .inl ⟨_, exec_bulkwr_run ha hn (hs.closed hd) hp⟩
    | erase n =>
      obtain ⟨hn, hd⟩ := refusalStatus_erase hr
      exact .inl ⟨_, exec_erase_run hn (hs.closed hd) hp⟩
    | sdpen => exact .inl (exec_sdpen_next (hs.closed (refusalStatus_sdpen hr)))
    | sdpdis => exact .inl (exec_sdpdis_next (hs.closed (refusalStatus_sdpdis hr)))

/-- With `BUSY = 0` a step is what the bytes at `RP` decode to (R101, R102). -/
theorem step_of_decode_ok {s : State} (hs : s.busy = false) {i : Instr} {n : Nat}
    (h : decode (pending s) = .ok (i, n)) : step s = exec i (consume n s) := by
  rw [step, hs, h]
  rfl

theorem step_of_decode_error {s : State} (hs : s.busy = false) {e : DecodeError}
    (h : decode (pending s) = .error e) : step s = noInstr e s := by
  rw [step, hs, h]
  rfl

end Sys2Proof.Machine
end

section
/-! SUPPORT. The obligations of 10_state.md, settled from the laws above. -/

namespace Sys2Proof.Machine

/-- Settles O47: what a step can do, with the invariant kept by every request, refused or executed. -/
theorem stepKeepsInvariant : Obligations.StepKeepsInvariant := by
  intro s t hs h
  rcases step_cases h with ⟨-, rfl⟩ | ⟨c, -, rfl⟩ | ⟨i, n, -, hx⟩
  · exact hs
  · exact (hs.consume 1).completeWith _ false
  · exact exec_keeps_inv hx (hs.consume n)

/-- Settles O48: by O47 only the stops count, and under `next_address` a request stops only at an `ENDWR` whose group
has no meaning. -/
theorem stepsStopOnlyByIllFormedGroups : Obligations.StepsStopOnlyByIllFormedGroups := by
  intro s hs hp
  have safe {t : State} (h : step s = .next t) : SafeStep s := ⟨t, h, stepKeepsInvariant s t hs h⟩
  cases hd : decode (pending s) with
  | error e =>
    have hstep := step_of_decode_error hs.idle hd
    cases e with
    | noRequest => exact .inl (safe hstep)
    | reservedCmd c => exact .inl (safe hstep)
    | truncatedPacket => exact .inr (.inl ⟨hstep, hd⟩)
  | ok request =>
    obtain ⟨i, n⟩ := request
    have hstep := step_of_decode_ok hs.idle hd
    rcases exec_next_or_refused (hs.consume n) hp i with ⟨t, ht⟩ | ⟨rfl, hx, hdir, hg⟩
    · exact .inl (safe (hstep.trans ht))
    · obtain rfl := decode_endwr_length hd
      exact .inr (.inr ⟨hstep.trans hx, hd, hdir, classifyGroup_eq_other hg⟩)

/-- Settles O8: no request moves `RP`, and the packet consumed has the length its header fixes. -/
theorem stepAdvancesByOnePacket : Obligations.StepAdvancesByOnePacket := by
  intro s t h
  show t.rp = s.rp + packetLength (pending s) ∧ t.stream = s.stream
  rcases step_cases h with ⟨hd, rfl⟩ | ⟨c, hd, rfl⟩ | ⟨i, n, hd, hx⟩
  · rw [decode_noRequest hd]
    exact ⟨rfl, rfl⟩
  · rw [decode_reservedCmd hd]
    exact ⟨rfl, rfl⟩
  · obtain ⟨hrp, hst, -⟩ := exec_keeps_host hx
    rw [← (decode_ok hd).2]
    exact ⟨hrp, hst⟩

/-- Settles O36: a page wait changes `SDP` only on an exact sequence, and the group of a bulk write or an erase, at
ascending addresses, is none. -/
theorem protectionChangesOnlyBySequence : Obligations.ProtectionChangesOnlyBySequence := by
  intro i s t hs h hne
  rcases exec_cases h with ⟨c, -, rfl⟩ | h
  · exact absurd rfl hne
  cases h with
  | setaddr | rdbyte | wrbyte | beginrd | endrd | beginwr => exact absurd rfl hne
  | endwr _ hw =>
    have hsdp := waitPage_sdp hw
    split_ifs at hsdp with he hd
    · exact .inl ⟨hsdp, .inr ⟨rfl, he⟩⟩
    · exact .inr ⟨hsdp, .inr ⟨rfl, hd⟩⟩
    · exact absurd hsdp hne
  | bulkwr _ _ hd hu hw | erase _ hd hu hw =>
    have hg := hs.groupClosed hd
    have hsdp := writeRun_wait_sdp (by exact hg) hu hw
    exact absurd hsdp hne
  | sdpen hd hu hw =>
    obtain ⟨u, hu', hg⟩ := writeTable_enable ((hs.closed hd).accept .sdpen)
    cases hu.symm.trans hu'
    exact .inl ⟨(waitPage_sdp hw).trans (if_pos hg), .inl rfl⟩
  | sdpdis hd hu hw =>
    obtain ⟨u, hu', hg⟩ := writeTable_disable ((hs.closed hd).accept .sdpdis)
    cases hu.symm.trans hu'
    refine .inr ⟨(waitPage_sdp hw).trans ?_, .inl rfl⟩
    rw [hg]
    rfl

/-- Settles O39, by cases of what an executed request can do. -/
theorem operandRegistersLoaded : Obligations.OperandRegistersLoaded := by
  intro i s t h hr
  cases executed_of_exec h hr with
  | setaddr | wrbyte | beginrd | endrd | beginwr => exact ⟨rfl, rfl, rfl, rfl, fun _ => rfl⟩
  | rdbyte => exact ⟨rfl, rfl, rfl, rfl, fun hne => absurd rfl hne⟩
  | endwr _ hw =>
    have hf := waitPage_frame hw
    exact ⟨hf.op, hf.addr, hf.len, hf.wdata, fun _ => hf.rdata⟩
  | bulkwr _ _ _ hu hw | erase _ _ hu hw =>
    have hf := writeRun_wait_frame hu hw
    exact ⟨hf.op, hf.addr, hf.len, hf.wdata, fun _ => hf.rdata⟩
  | sdpen _ hu hw | sdpdis _ hu hw =>
    have hf := writeTable_wait_frame hu hw
    exact ⟨hf.op, hf.addr, hf.len, hf.wdata, fun _ => hf.rdata⟩

/-- Settles O40, by cases of what a request can do: the composite operations close the bracket they open. -/
theorem controlBitsWrittenByBracketsOnly : Obligations.ControlBitsWrittenByBracketsOnly := by
  intro i s t h
  obtain ⟨-, -, hconfig⟩ := exec_keeps_host h
  refine ⟨hconfig, ?_⟩
  rcases exec_cases h with ⟨c, -, rfl⟩ | h
  · exact ⟨fun _ _ => rfl, fun _ _ => rfl, fun _ => ⟨rfl, rfl⟩⟩
  cases h with
  | setaddr | rdbyte | wrbyte => exact ⟨fun _ _ => rfl, fun _ _ => rfl, fun _ => ⟨rfl, rfl⟩⟩
  | beginrd => exact ⟨fun _ _ => rfl, fun hne => absurd rfl hne, fun _ => ⟨rfl, rfl⟩⟩
  | endrd => exact ⟨fun _ _ => rfl, fun _ hne => absurd rfl hne, fun _ => ⟨rfl, rfl⟩⟩
  | beginwr => exact ⟨fun hne => absurd rfl hne, fun _ _ => rfl, by simp [Instr.op]⟩
  | endwr _ hw => exact ⟨fun _ hne => absurd rfl hne, fun _ _ => (waitPage_frame hw).ledRead, by simp [Instr.op]⟩
  | bulkwr _ _ hd hu hw | erase _ hd hu hw =>
    exact ⟨fun _ _ => hd.symm, fun _ _ => (writeRun_wait_frame hu hw).ledRead, by simp [Instr.op]⟩
  | sdpen hd hu hw | sdpdis hd hu hw =>
    exact ⟨fun _ _ => hd.symm, fun _ _ => (writeTable_wait_frame hu hw).ledRead, by simp [Instr.op]⟩

/-- Settles O41, by cases of what a request can do. -/
theorem noCommitWithoutPageWait : Obligations.NoCommitWithoutPageWait := by
  intro i s t h hi
  rcases exec_cases h with ⟨c, -, rfl⟩ | h
  · exact ⟨rfl, rfl, fun _ => rfl⟩
  cases h with
  | setaddr | rdbyte | beginrd | endrd | beginwr => exact ⟨rfl, rfl, fun _ => rfl⟩
  | wrbyte => exact ⟨rfl, rfl, fun hne => absurd rfl hne⟩
  | endwr | bulkwr | erase | sdpen | sdpdis => simp [Instr.op] at hi

/-- Settles O43, by the two pins that decide who drives the data bus. -/
theorem dataPinsHaveNoValueInContention : Obligations.DataPinsHaveNoValueInContention := by
  intro s
  refine ⟨fun h => ?_, fun h => ?_, fun h => ?_, fun h => ?_⟩
  · simp only [dataBus, h.dirOut, h.oeHigh]
  · have ha : (addrLines s.al).toNat = s.al.toNat % 0x8000 := by simp [addrLines, BitVec.extractLsb'_toNat]
    simp only [dataBus, h.dirIn, memReadable_of_readable h, memRead, ha, if_true]
  · have ho : (setDir .output (setLedProg true s)).oeN = false := h.oeLow
    have hd : (setDir .output (setLedProg true s)).dir = .output := rfl
    simp only [dataBus, hd, ho]
  · have hd : (setOe false s).dir = .output := h.dirOut
    have ho : (setOe false s).oeN = false := rfl
    simp only [dataBus, hd, ho]

/-- Settles O44: each value is the one the reset state was given. -/
theorem resetValuesOfTable : Obligations.ResetValuesOfTable :=
  ⟨rfl, rfl, rfl, rfl, rfl, rfl, rfl, rfl, rfl, rfl, rfl, rfl, rfl⟩

/-- Settles O46, clause by clause. -/
theorem resetMeetsInvariant : Obligations.ResetMeetsInvariant where
  idle := rfl
  weHigh := rfl
  rclkLow := rfl
  srclkLow := rfl
  groupClosed _ := rfl
  oeOpen := by decide
  ledOpen := by decide
  tmrWeIdle := rfl
  tmrPageIdle := rfl
  memWf := wf_nil

end Sys2Proof.Machine
end

section
/-! SUPPORT. What `ENDWR` leaves once its group has been committed, what a byte read leaves, and where the latch
stays. -/

namespace Sys2Proof.Machine

/-! ### The end of a write bracket -/

/-- The state `ENDWR` leaves when its commit has left `mem`, `sdp` and the draw counter `draws` (R173, R183). -/
def afterEndwr (mem : Memory) (sdp : Bool) (draws : Nat) (s : State) : State :=
  emit endTrace { s with
    op := 0x7, status := 0x00, busy := false, recordsRev := [0x00] :: s.recordsRev, oeN := false, dir := .input
    ledProg := false, tmrPage := 0, group := [], mem := mem, sdp := sdp, draws := draws }

/-- The state in which the commit of an accepted `ENDWR` takes place. -/
def endwrWaited (s : State) : State := pageWaited (accept .endwr s)

@[simp] theorem endwrWaited_group (s : State) : (endwrWaited s).group = s.group := rfl

/-- A commit leaves `MEM`, `SDP` and the draw counter to say; `ENDWR` fixes the rest. -/
theorem exec_endwr_committed {s : State} {mem : Memory} {sdp : Bool} {draws : Nat} (hd : s.dir = .output)
    (h : commitGroup (endwrWaited s) =
      .next { endwrWaited s with mem := mem, sdp := sdp, draws := draws, group := [] }) :
    exec .endwr s = .next (afterEndwr mem sdp draws s) :=
  exec_endwr_of_commit hd h

/-- R81: `ENDWR` stops at a group with no meaning. -/
theorem exec_endwr_refused {s : State} (hd : s.dir = .output) (h : classifyGroup s.group = .other) :
    exec .endwr s = .refused .unrecognisedGroup := by
  have hc : commitGroup (pageWaited (accept .endwr s)) = .refused .unrecognisedGroup := commitGroup_other h
  rw [exec_endwr hd, endWrite_eq, waitPage_eq, hc]
  rfl

/-! ### Byte accesses -/

/-- Whatever the pins carry, a byte read makes the trace of the byte it returns (R152, R158). -/
theorem readByte_trace (a : Word) (s : State) :
    (readByte a s).2.trace = s.trace ++ readTrace a (readByte a s).1 := by
  rw [readByte, sample_trace, setAddress_eq, afterAddress, trace_emit, readTrace_eq, List.append_assoc]
  rfl

theorem exec_rdbyte_trace {a : Word} {s t : State} (ha : a.toNat ≤ 0x7FFF) (hd : s.dir = .input)
    (h : exec (.rdbyte a) s = .next t) : t.trace = s.trace ++ readTrace a t.rdata := by
  have htrace := readByte_trace a (loadAddr a (accept .rdbyte s))
  rw [exec_rdbyte ha hd] at h
  generalize readByte a (loadAddr a (accept .rdbyte s)) = r at h htrace
  cases h
  exact htrace

/-- Under the precondition of `MemRead` a byte read returns what the array holds at the address lines (R72, R158). -/
theorem readByte_value (a : Word) {s : State} (h : memReadable s = true) :
    (readByte a s).1 = readCell s.mem (addrLines a).toNat := by
  rw [readByte, setAddress_eq, sample_eq (s := afterAddress a s) h]
  rfl

/-- R155: a byte read of a readable chip answers the stored byte. -/
theorem exec_rdbyte_stored {a : Word} {s : State} (ha : a.toNat ≤ 0x7FFF) (hs : s.Readable) :
    ∃ t, exec (.rdbyte a) s = .next t ∧ t.rdata = readCell s.mem a.toNat ∧ t.status = 0x00 := by
  refine ⟨_, exec_rdbyte ha hs.dirIn, ?_, rfl⟩
  have hr : memReadable (loadAddr a (accept .rdbyte s)) = true := (memReadable_of_readable hs :)
  rw [completeWith_rdata, setRdata_rdata, readByte_value a hr, addrLines_of_lt (by omega)]
  rfl

theorem pulseInContract_eq_false {s : State} (h : ¬ s.Writable) : pulseInContract s = false :=
  Bool.eq_false_iff.mpr fun hc => h (writable_of_pulseInContract hc)

/-- A completed bulk write leaves the chip readable (R72, R183). -/
theorem afterPaced_readable {a : Word} {p : List Byte} {s : State} (hn : a.toNat + p.length ≤ 0x8000)
    (hw : s.weN = true) : (completeWith statusOk false (afterPaced a p s)).Readable where
  dirIn := rfl
  weHigh := afterPaced_weN hn hw
  noGroup := rfl
  oeLow := rfl

/-! ### The address latch

`AL` and `SR` move together: an address set leaves the same address in both. -/

/-- From `s` to `t` the latch and the stages are as they were, or hold the same address below `0x8000` (R67, R68). -/
def LatchBelow (s t : State) : Prop :=
  (t.al = s.al ∧ t.sr = s.sr) ∨ (t.al.toNat < 0x8000 ∧ t.sr = t.al)

theorem LatchBelow.refl (s : State) : LatchBelow s s := .inl ⟨rfl, rfl⟩

theorem LatchBelow.trans {s t u : State} (h : LatchBelow s t) (k : LatchBelow t u) : LatchBelow s u := by
  rcases k with ⟨hal, hsr⟩ | k
  · unfold LatchBelow
    rw [hal, hsr]
    exact h
  · exact .inr k

theorem waitPage_latch {s t : State} (h : waitPage s = .next t) : LatchBelow s t := by
  rw [waitPage_cases h]
  exact .inl ⟨rfl, rfl⟩

theorem waitPage_cur {s t : State} (h : waitPage s = .next t) : t.cur = s.cur := by
  rw [waitPage_cases h]

/-- A pacing test, with or without its wait, moves neither the latch nor the cursor. -/
theorem paceWait_latch {i : Nat} {s t : State} (h : paceWait i s = .next t) : LatchBelow s t ∧ t.cur = s.cur := by
  rcases paceWait_cases h with ⟨-, hw⟩ | ⟨-, rfl⟩
  · exact ⟨waitPage_latch hw, waitPage_cur hw⟩
  · exact ⟨.refl _, rfl⟩

/-- A write run inside the array, under any pacing rule. -/
theorem writeRun_latch {p : List Byte} {i : Nat} {s t : State} (hc : s.cur.toNat + p.length ≤ 0x8000)
    (h : writeRun p i s = .next t) : LatchBelow s t := by
  induction p generalizing i s with
  | nil =>
    cases h
    exact .refl _
  | cons v p ih =>
    rw [List.length_cons] at hc
    have hlt : s.cur.toNat < 0x8000 := by omega
    obtain ⟨u, -, hu, hrest⟩ := writeRun_cons h
    obtain ⟨hwait, hcur⟩ := paceWait_latch hu
    have hwrote : LatchBelow s (advanceCursor (afterWrite s.cur v s)) := .inr ⟨hlt, rfl⟩
    have hu_cur : u.cur.toNat = s.cur.toNat + 1 := by rw [hcur, ← cur_succ hlt]; rfl
    exact (hwrote.trans hwait).trans (ih (by omega) hrest)

/-- A table walk whose addresses lie in the array. -/
theorem writeTable_latch {table : List (Word × Byte)} {k : Nat} {s t : State}
    (ha : ∀ e ∈ table, e.1.toNat < 0x8000) (h : writeTable table k s = .next t) : LatchBelow s t := by
  induction table generalizing k s with
  | nil =>
    cases h
    exact .refl _
  | cons e table ih =>
    have hwrote : LatchBelow s (afterWrite e.1 e.2 (setIndex k s)) := .inr ⟨ha e (by simp), rfl⟩
    exact hwrote.trans (ih (fun d hd => ha d (by simp [hd])) (writeTable_cons h).2)

/-- R67, R68, R223: every executed request. -/
theorem Executed.latch {i : Instr} {s t : State} (h : Executed i s t) : LatchBelow s t := by
  cases h with
  | setaddr ha | rdbyte ha | wrbyte ha => exact .inr ⟨Nat.lt_succ_of_le ha, rfl⟩
  | beginrd | endrd | beginwr => exact .inl ⟨rfl, rfl⟩
  | endwr _ hw =>
    have hl := waitPage_latch hw
    exact hl
  | bulkwr _ hn _ hu hw =>
    have hl := (writeRun_latch hn hu).trans (waitPage_latch hw)
    exact hl
  | erase hn _ hu hw =>
    have hl := (writeRun_latch (by simpa using hn) hu).trans (waitPage_latch hw)
    exact hl
  | sdpen _ hu hw | sdpdis _ hu hw =>
    have hl := (writeTable_latch (by simp [sdpEnTable, sdpDisTable]) hu).trans (waitPage_latch hw)
    exact hl

end Sys2Proof.Machine
end

section
/-! SUPPORT. The obligations of 20_memory.md, settled from the laws above. -/

namespace Sys2Proof.Machine

/-- Settles O14: eight samples leave everything but the trace and the draw counter, and their events are the bits of the
byte they make. -/
theorem rdbyteFrame : Obligations.RdbyteFrame := by
  intro a s ha hd
  obtain ⟨t, ht⟩ : ∃ t, exec (.rdbyte a) s = .next t := ⟨_, exec_rdbyte ha hd⟩
  refine ⟨t, ht, ?_, exec_rdbyte_trace ha hd ht⟩
  cases executed_of_exec ht (by simp [refusalStatus, ha, hd]) with
  | rdbyte => rfl

/-- Settles O20, by the commit of a data group. -/
theorem endwrCommitsDataGroup : Obligations.EndwrCommitsDataGroup := by
  intro s hd hg hm
  have hc := commitGroup_data (s := endwrWaited s) (classify_data hg)
  refine ⟨_, exec_endwr_committed hd hc, rfl, ?_⟩
  show Memory.wf (if s.sdp then s.mem else storeGroup s.group s.mem) ∧
    ∀ a, readCell (if s.sdp then s.mem else storeGroup s.group s.mem) a = _
  cases s.sdp with
  | true => exact ⟨hm, fun _ => rfl⟩
  | false => exact ⟨wf_storeGroup _ hm, readCell_storeGroup _ hm⟩

/-- Settles O21, by the commit of the enable sequence. -/
theorem endwrRecognisesEnableSequence : Obligations.EndwrRecognisesEnableSequence := by
  intro s hd hg hm
  have hc := commitGroup_enable (s := endwrWaited s) (by rw [endwrWaited_group, hg, classifyGroup_enable])
  exact ⟨_, exec_endwr_committed hd hc, rfl, readCell_storeSequence 0xA0 (s := endwrWaited s) hm⟩

/-- Settles O22, by the commit of the disable sequence. -/
theorem endwrRecognisesDisableSequence : Obligations.EndwrRecognisesDisableSequence := by
  intro s hd hg hm
  have hc := commitGroup_disable (s := endwrWaited s) (by rw [endwrWaited_group, hg, classifyGroup_disable])
  exact ⟨_, exec_endwr_committed hd hc, rfl, readCell_storeSequence 0x20 (s := endwrWaited s) hm⟩

/-- Settles O23: a defective command stores free bytes, and only at its own addresses. -/
theorem defectiveSequenceKeepsProtection : Obligations.DefectiveSequenceKeepsProtection := by
  intro s hd hm h0 he hdis hg hmade
  have hc := commitGroup_defective (s := endwrWaited s) (classify_defective h0 he hdis hg hmade)
  rw [storeAnyGroup_eq] at hc
  exact ⟨_, exec_endwr_committed hd hc, rfl, wf_storeAnyGroup s.group (s := endwrWaited s) hm,
    fun _ ha => readCell_storeAnyGroup s.group (s := endwrWaited s) hm ha⟩

/-- Settles O24: such a group is the last case of R75. -/
theorem unrecognisedGroupIsRefused : Obligations.UnrecognisedGroupIsRefused := by
  intro s hd h0 hg he hdis
  exact exec_endwr_refused hd (classify_other h0 hg he hdis)

/-- Settles O42: a refused request leaves the latch, and every executed one latches only addresses it was checked
for. -/
theorem latchBitFifteenStaysClear : Obligations.LatchBitFifteenStaysClear := by
  intro i s t h
  rcases exec_cases h with ⟨c, -, rfl⟩ | h
  · exact .inl rfl
  · exact h.latch.imp_left And.left

/-- Settles O49: the bulk write leaves the payload in the array and the chip readable. -/
theorem bulkwrThenRdbyteReadsBack : Obligations.BulkwrThenRdbyteReadsBack := by
  intro a p s ha hn hs hm hsdp hr
  refine ⟨_, exec_bulkwr_run ha hn hs hr, fun j hj => ?_⟩
  have haj : (a + BitVec.ofNat 16 j).toNat = a.toNat + j := by
    rw [BitVec.toNat_add, BitVec.toNat_ofNat]
    omega
  have hreadable := afterPaced_readable (p := p) (s := bulkAccepted a p s) hn hs.weHigh
  obtain ⟨u, hu, hdata, hstatus⟩ := exec_rdbyte_stored (a := a + BitVec.ofNat 16 j) (by omega) hreadable
  refine ⟨u, hu, ?_, hstatus⟩
  rw [hdata, haj, completeWith_mem, readCell_afterPaced (s := bulkAccepted a p s) hn hs.noGroup hm hsdp,
    dif_pos (by omega)]
  simp

/-- Settles O16: outside the contract the write pulse is a byte write's stop (log 11). -/
theorem wrbyteOutsideContractStops : Obligations.WrbyteOutsideContractStops := by
  intro a v s ha hd hw
  have hc : pulseInContract (loadWdata v (loadAddr a (accept .wrbyte s))) = false :=
    (pulseInContract_eq_false hw :)
  rw [exec_wrbyte ha v hd, writeByte_refused a v hc]
  rfl

end Sys2Proof.Machine
end

section
/-! SUPPORT. The decoder and the encoder as inverses, the completion record of a request, and what the console verbs
ask for. -/

namespace Sys2Proof

/-! ### Decoding an encoding -/

/-- A `CMD` byte of the operation map selects the operands that follow it (R104, R106). -/
theorem decode_cmd_cons (o : Op) (bs : List Byte) : decode (o.cmd :: bs) = decodeOperands o bs := by
  rw [decode, decodeCmd_cmd]

theorem encode_eq_cmd_cons (i : Instr) : encode i = i.op.cmd :: (encode i).tail := by
  cases i <;> rfl

theorem decodeWord_halves (f : Word → Instr) (a : Word) (rest : List Byte) :
    decodeWord f (hi8 a :: lo8 a :: rest) = .ok (f a, 3) := by
  rw [decodeWord, word16_halves]

theorem decodeFad_halves (f : Word → Byte → Instr) (a : Word) (v : Byte) (rest : List Byte) :
    decodeFad f (hi8 a :: lo8 a :: v :: rest) = .ok (f a v, 4) := by
  rw [decodeFad, word16_halves]

theorem decodeFal_halves (f : Word → List Byte → Instr) (a : Word) {p : List Byte} (hp : p.length < 0x10000)
    (rest : List Byte) :
    decodeFal f (hi8 a :: lo8 a :: hi8 (BitVec.ofNat 16 p.length) :: lo8 (BitVec.ofNat 16 p.length) :: (p ++ rest)) =
      .ok (f a p, 5 + p.length) := by
  have hn : (BitVec.ofNat 16 p.length).toNat = p.length := Nat.mod_eq_of_lt hp
  simp only [decodeFal, word16_halves, hn, takeExactly_append]

/-- R105, R107 to R111: the decoder gives back the request of a packet, whatever follows the packet. -/
theorem decode_encode_append {i : Instr} (hi : WellFormed i) (rest : List Byte) :
    decode (encode i ++ rest) = .ok (i, (encode i).length) := by
  have hcmd : decode (encode i ++ rest) = decodeOperands i.op ((encode i).tail ++ rest) := by
    rw [← decode_cmd_cons, ← List.cons_append, ← encode_eq_cmd_cons]
  rw [hcmd]
  cases i with
  | setaddr a | rdbyte a | erase a => exact decodeWord_halves _ a rest
  | wrbyte a v => exact decodeFad_halves _ a v rest
  | bulkwr a p =>
    rw [Laws.EncodeLength.bulkwr a p]
    exact decodeFal_halves _ a (of_decide_eq_true hi) rest
  | beginrd | endrd | beginwr | endwr | sdpen | sdpdis => rfl

/-! ### Encoding what was decoded -/

theorem decodeWord_bytes {f : Word → Instr} {bs : List Byte} {i : Instr} {n : Nat}
    (h : decodeWord f bs = .ok (i, n)) : ∃ a rest, i = f a ∧ n = 3 ∧ bs = hi8 a :: lo8 a :: rest := by
  unfold decodeWord at h
  split at h <;> cases h
  next hi lo rest => exact ⟨word16 hi lo, rest, rfl, rfl, by rw [hi8_word16, lo8_word16]⟩

theorem decodeFad_bytes {f : Word → Byte → Instr} {bs : List Byte} {i : Instr} {n : Nat}
    (h : decodeFad f bs = .ok (i, n)) : ∃ a v rest, i = f a v ∧ n = 4 ∧ bs = hi8 a :: lo8 a :: v :: rest := by
  unfold decodeFad at h
  split at h <;> cases h
  next hi lo v rest => exact ⟨word16 hi lo, v, rest, rfl, rfl, by rw [hi8_word16, lo8_word16]⟩

/-- The payload of an accepted packet has the length its field `LEN` encodes, so that field is not lost (R108). -/
theorem decodeFal_bytes {f : Word → List Byte → Instr} {bs : List Byte} {i : Instr} {n : Nat}
    (h : decodeFal f bs = .ok (i, n)) :
    ∃ a p rest, i = f a p ∧ n = 5 + p.length ∧ p.length < 0x10000 ∧
      bs = hi8 a :: lo8 a :: hi8 (BitVec.ofNat 16 p.length) :: lo8 (BitVec.ofNat 16 p.length) :: (p ++ rest) := by
  unfold decodeFal at h
  split at h
  · next ah al lh ll bytes =>
    split at h <;> cases h
    next p hp =>
      obtain ⟨hlen, hbytes⟩ := takeExactly_eq_some_iff.mp hp
      have hn : BitVec.ofNat 16 p.length = word16 lh ll := by rw [hlen, BitVec.ofNat_toNat, BitVec.setWidth_eq]
      refine ⟨word16 ah al, p, bytes.drop (word16 lh ll).toNat, rfl, by rw [hlen], hlen ▸ (word16 lh ll).isLt, ?_⟩
      rw [hn, hi8_word16, lo8_word16, hi8_word16, lo8_word16, ← hbytes]
  · cases h

/-- Accepted operand bytes, after their `CMD`, begin with the encoding of the answer. -/
theorem eq_encode_append_of_decodeOperands {o : Op} {bs : List Byte} {i : Instr} {n : Nat}
    (h : decodeOperands o bs = .ok (i, n)) :
    WellFormed i ∧ n = (encode i).length ∧ ∃ rest, o.cmd :: bs = encode i ++ rest := by
  cases o with
  | setaddr | rdbyte | erase =>
    obtain ⟨a, rest, rfl, rfl, rfl⟩ := decodeWord_bytes h
    exact ⟨rfl, rfl, rest, rfl⟩
  | wrbyte =>
    obtain ⟨a, v, rest, rfl, rfl, rfl⟩ := decodeFad_bytes h
    exact ⟨rfl, rfl, rest, rfl⟩
  | bulkwr =>
    obtain ⟨a, p, rest, rfl, rfl, hp, rfl⟩ := decodeFal_bytes h
    exact ⟨decide_eq_true hp, (Laws.EncodeLength.bulkwr a p).symm, rest, rfl⟩
  | beginrd | endrd | beginwr | endwr | sdpen | sdpdis =>
    cases h
    exact ⟨rfl, rfl, bs, rfl⟩

/-- R101, R105: accepted bytes begin with the encoding of the answer. -/
theorem eq_encode_append_of_decode {bs : List Byte} {i : Instr} {n : Nat} (h : decode bs = .ok (i, n)) :
    WellFormed i ∧ n = (encode i).length ∧ ∃ rest, bs = encode i ++ rest := by
  obtain ⟨⟨rest, rfl⟩, -⟩ := decode_ok h
  rw [decode_cmd_cons] at h
  exact eq_encode_append_of_decodeOperands h

/-! ### Reserved commands -/

/-- R120: the decoder rejects a reserved `CMD` by name, whatever follows it. -/
theorem decode_cons_reserved {cmd : Byte} (h : cmd = 0x00 ∨ 0x0C ≤ cmd.toNat) (rest : List Byte) :
    decode (cmd :: rest) = .error (.reservedCmd cmd) := by
  rw [decode, decodeCmd_eq_none_iff.mpr h]

theorem packetLength_cons_reserved {cmd : Byte} (h : cmd = 0x00 ∨ 0x0C ≤ cmd.toNat) (rest : List Byte) :
    packetLength (cmd :: rest) = 1 :=
  decode_reservedCmd (decode_cons_reserved h rest)

/-- R111: the one length that operand bytes decide. -/
theorem packetLength_bulkwr_cons (rest : List Byte) :
    packetLength (Op.bulkwr.cmd :: rest) = 5 + (256 * (rest.getD 2 0).toNat + (rest.getD 3 0).toNat) := by
  rw [← word16_toNat]
  rfl

end Sys2Proof

namespace Sys2Proof.Machine

/-! ### Completion -/

/-- R222 to R225: no refusal cause has the code of success. -/
theorem refusalStatus_ne_ok {i : Instr} {d : Dir} {c : Byte} (h : refusalStatus i d = some c) : c ≠ 0x00 := by
  rintro rfl
  cases i <;> simp [refusalStatus, ite_eq_iff] at h

theorem WriteFrame.records {s t : State} (h : WriteFrame s t) : t.records = s.records :=
  (congrArg State.records h :)

/-- R103: an executed request ends by its completion record, with the byte read if it is an `RDBYTE`, and makes no
other. -/
theorem Executed.completes {i : Instr} {s t : State} (h : Executed i s t) :
    ∃ u, t = completeWith statusOk (decide (i.op = .rdbyte)) u ∧ u.records = s.records := by
  cases h with
  | setaddr | rdbyte | wrbyte | beginrd | endrd | beginwr => exact ⟨_, rfl, rfl⟩
  | endwr _ hw => exact ⟨_, rfl, ((waitPage_frame hw).records :)⟩
  | bulkwr _ _ _ hu hw | erase _ _ hu hw => exact ⟨_, rfl, ((writeRun_wait_frame hu hw).records :)⟩
  | sdpen _ hu hw | sdpdis _ hu hw => exact ⟨_, rfl, ((writeTable_wait_frame hu hw).records :)⟩

/-! ### Console verbs -/

/-- A request no cause of R223 to R225 refuses while the write bracket is closed. -/
def AcceptedClosed (i : Instr) : Prop := WellFormed i ∧ refusalStatus i .input = none

theorem acceptedClosed_rdbyte {a : Nat} (ha : a < 0x8000) : AcceptedClosed (.rdbyte (BitVec.ofNat 16 a)) := by
  have hn : (BitVec.ofNat 16 a).toNat = a := Nat.mod_eq_of_lt (by omega)
  refine ⟨rfl, ?_⟩
  rw [refusalStatus, hn, if_neg (by omega), if_pos rfl]

theorem acceptedClosed_bulkwr {a : Nat} {p : List Byte} (ha : a < 0x8000) (hn : a + p.length ≤ 0x8000) :
    AcceptedClosed (.bulkwr (BitVec.ofNat 16 a) p) := by
  have ha16 : (BitVec.ofNat 16 a).toNat = a := Nat.mod_eq_of_lt (by omega)
  refine ⟨decide_eq_true (by omega), ?_⟩
  rw [refusalStatus, ha16, if_neg (by omega), if_neg (by omega), if_pos rfl]

theorem acceptedClosed_erase {n : Nat} (hn : n ≤ 0x8000) : AcceptedClosed (.erase (BitVec.ofNat 16 n)) := by
  have hn16 : (BitVec.ofNat 16 n).toNat = n := Nat.mod_eq_of_lt (by omega)
  refine ⟨rfl, ?_⟩
  rw [refusalStatus, hn16, if_neg (by omega), if_pos rfl]

/-- R125: reads inside the array, in their read bracket. -/
theorem acceptedClosed_readRequests {a n : Nat} (h : a + n ≤ 0x8000) : ∀ i ∈ readRequests a n, AcceptedClosed i := by
  intro i hi
  simp only [readRequests, List.cons_append, List.mem_cons, List.mem_append, List.mem_map, List.mem_range,
    List.not_mem_nil, or_false] at hi
  rcases hi with rfl | ⟨j, hj, rfl⟩ | rfl
  · exact ⟨rfl, rfl⟩
  · exact acceptedClosed_rdbyte (by omega)
  · exact ⟨rfl, rfl⟩

/-- An `r` verb that is not turned away starts at or below the end of the array (R125, C3). -/
theorem readStart_le {c : Caller} {addr : Option Word} (hc : c.ca ≤ 0x8000)
    (h : ¬ (addr.isSome && decide (Config.maxRomSize ≤ readStart c addr)) = true) : readStart c addr ≤ 0x8000 := by
  cases addr with
  | none => exact hc
  | some a => exact (Nat.not_le.mp fun hle => h (decide_eq_true hle)).le

/-- The clamp of R125 keeps a read inside the array. -/
theorem add_readCount_le {c : Caller} {a : Nat} (ha : a ≤ 0x8000) (count : Option Word) :
    a + readCount c a count ≤ 0x8000 := by
  have hclamp : readCount c a count ≤ 0x8000 - a := Nat.min_le_right _ _
  omega

end Sys2Proof.Machine
end

section
/-! SUPPORT. The obligations of 30_encoding.md, settled from the laws above. -/

namespace Sys2Proof.Machine

/-- Settles O1, by the formats of the packet. -/
theorem encodeThenDecodeGivesRequest : Obligations.EncodeThenDecodeGivesRequest :=
  fun _ rest hi => decode_encode_append hi rest

/-- Settles O2: the accepted bytes begin with the encoding, and their header has fixed its length. -/
theorem decodedPacketIsItsEncoding : Obligations.DecodedPacketIsItsEncoding := by
  intro bytes i n h
  obtain ⟨hi, rfl, rest, rfl⟩ := eq_encode_append_of_decode h
  refine ⟨hi, ?_, rfl, (decode_ok h).2⟩
  rw [List.drop_left]

/-- Settles O6: a reserved `CMD` is refused by name, and the operation map has a row for every other one. -/
theorem reservedCommandIsRefused : Obligations.ReservedCommandIsRefused := by
  intro s cmd rest hs hbs
  split
  · next hc =>
    have hd : decode (pending s) = .error (.reservedCmd cmd) :=
      (congrArg decode hbs).trans (decode_cons_reserved hc rest)
    exact step_of_decode_error hs hd
  · next hc => exact Option.ne_none_iff_exists'.mp (mt decodeCmd_eq_none_iff.mp hc)

/-- Settles O38: a refused request records its cause, which is never 0, and an executed one its completion. -/
theorem completionRecordOfRequest : Obligations.CompletionRecordOfRequest := by
  intro i s t h
  cases hr : refusalStatus i s.dir with
  | some c =>
    rw [exec_refused hr] at h
    cases h
    have hc := refusalStatus_ne_ok hr
    refine ⟨rfl, rfl, ?_⟩
    rw [records_completeWith, completeWith_status, if_neg Bool.false_ne_true, if_neg fun hok => hc hok.2]
  | none =>
    obtain ⟨u, rfl, hu⟩ := (executed_of_exec h hr).completes
    exact ⟨rfl, rfl, by simp [hu, statusOk]⟩

/-- Settles O50, by the verbs that hand over requests: a read, a data line and an erase are clamped to the array. -/
theorem verbRequestsAreNeverRefused : Obligations.VerbRequestsAreNeverRefused := by
  intro c v is ca hc h
  show ca ≤ 0x8000 ∧ ∀ i ∈ is, AcceptedClosed i
  cases v with
  | read addr count =>
    simp only [expandVerb] at h
    split_ifs at h with hstart <;> cases h
    · exact ⟨hc, nofun⟩
    · have hle := add_readCount_le (c := c) (readStart_le hc hstart) count
      exact ⟨hle, acceptedClosed_readRequests hle⟩
  | write addr =>
    cases h
    refine ⟨?_, nofun⟩
    split
    · next hlt => exact hlt.le
    · exact hc
  | dataLine bytes =>
    simp only [expandVerb] at h
    split_ifs at h with hnil hcap <;> cases h
    · exact ⟨hc, nofun⟩
    · have hpos : 0 < bytes.length := List.length_pos_iff.mpr hnil
      have hroom : bytes.length ≤ 0x8000 - c.ca := hcap.trans (Nat.min_le_right _ _)
      have hle : c.ca + bytes.length ≤ 0x8000 := by omega
      exact ⟨hle, List.forall_mem_singleton.mpr (acceptedClosed_bulkwr (by omega) hle)⟩
  | erase len =>
    cases h
    exact ⟨Nat.zero_le _, List.forall_mem_singleton.mpr (acceptedClosed_erase (Nat.min_le_right _ _))⟩
  | lock | unlock =>
    cases h
    exact ⟨hc, List.forall_mem_singleton.mpr ⟨rfl, rfl⟩⟩
  | help | version | binary | empty | unknown | invalid =>
    cases h
    exact ⟨hc, nofun⟩

/-- Settles O3: each packet is decoded as it stands. -/
theorem workedPacketsDecode : Obligations.WorkedPacketsDecode := by
  unfold Obligations.WorkedPacketsDecode
  decide

/-- Settles O4, by the rows of the operation map and the reserved values. -/
theorem firstByteFixesPacketLength : Obligations.FirstByteFixesPacketLength := by
  intro cmd rest
  cases hc : decodeCmd cmd with
  | none =>
    have hne (o : Op) : cmd ≠ o.cmd := by
      rintro rfl
      cases hc.symm.trans (decodeCmd_cmd o)
    have hword : cmd ∉ [0x01, 0x02, 0x09] := by simpa using ⟨hne .setaddr, hne .rdbyte, hne .erase⟩
    have hwrbyte : cmd ≠ 0x03 := hne .wrbyte
    have hbulkwr : cmd ≠ 0x08 := hne .bulkwr
    rw [packetLength_cons_reserved (decodeCmd_eq_none_iff.mp hc), if_neg hword, if_neg hwrbyte, if_neg hbulkwr]
  | some o =>
    obtain rfl := cmd_of_decodeCmd hc
    cases o with
    | bulkwr => exact packetLength_bulkwr_cons rest
    | setaddr | rdbyte | wrbyte | beginrd | endrd | beginwr | endwr | erase | sdpen | sdpdis => rfl

/-- Settles O5: a step is what the bytes at `RP` decode to. -/
theorem stepRunsDecodedRequest : Obligations.StepRunsDecodedRequest :=
  fun _ _ _ hs h => step_of_decode_ok hs h

/-- Settles O7: the busy test comes first, and the two other cases are those of bytes that are no request. -/
theorem stepWithoutRequest : Obligations.StepWithoutRequest := by
  intro s
  refine ⟨fun hs => ?_, fun hs hbs => ?_, fun hs h => step_of_decode_error hs h⟩
  · rw [step, hs]
    rfl
  · exact step_of_decode_error hs (congrArg decode hbs)

end Sys2Proof.Machine
end

section
/-! SUPPORT. One shifted bit and the address lines, in the terms of 40_address_latch.md. -/

namespace Sys2Proof.Machine

theorem shiftIn_eq (v : Word) (b : Bool) : shiftIn v b = (v <<< 1) ||| (if b then 1 else 0) := by
  cases b <;> rfl

/-- `AL[15]` reaches no address line, whatever was latched (R27). -/
theorem addrLines_toNat_mod (a : Word) : (addrLines a).toNat = a.toNat % 0x8000 :=
  BitVec.extractLsb'_toNat 0 15 a

/-- R223, R229: `SETADDR` outside the array leaves its status and its record, and no other mark. -/
theorem exec_setaddr_refused {a : Word} (ha : 0x7FFF < a.toNat) (s : State) :
    exec (.setaddr a) s = .next (completeWith 0x02 false s) :=
  exec_refused (if_pos ha)

end Sys2Proof.Machine
end

section
/-! SUPPORT. The obligations of 40_address_latch.md, settled from the laws above. -/

namespace Sys2Proof.Machine

/-- Settles O10, by the net effect of the eight shifted bits. -/
theorem shiftByteNetEffect : Obligations.ShiftByteNetEffect := by
  intro v s
  rw [shiftByte_eq]
  exact ⟨rfl, rfl, trace_emit (shiftByteEvents v) _⟩

/-- Settles O11: after sixteen shifted bits nothing is left of the old stages, and the latch pulse copies the new
ones. -/
theorem addressSetNetEffect : Obligations.AddressSetNetEffect := by
  intro a s
  rw [setAddress_eq]
  exact ⟨rfl, addrLines_toNat_mod a, trace_emit (addressTrace a) _, addressTrace_length a⟩

/-- Settles O12, by the one refusal of `SETADDR` and, past it, the net effect of the address set. -/
theorem setaddrLatchesAddress : Obligations.SetaddrLatchesAddress := by
  intro a s
  split
  · next ha => exact exec_setaddr_refused ha s
  · next ha =>
    rw [exec_setaddr (Nat.not_lt.mp ha), setAddress_eq]
    rfl

/-- Settles O9, by the laws of one shifted bit and of the latch pulse. -/
theorem shiftBitAndLatchPulse : Obligations.ShiftBitAndLatchPulse := by
  intro b s
  refine ⟨?_, rfl, latchPulse_eq s⟩
  rw [shiftBit_eq, shiftIn_eq]
  rfl

end Sys2Proof.Machine
end

section
/-! SUPPORT. A byte read of a readable chip, in the terms of 41_byte_access.md. -/

namespace Sys2Proof.Machine

/-- `read_byte(a)` under the precondition of `MemRead`: the byte at the address lines, after the address set and the
eight samples of that byte (R158, R72). -/
theorem readByte_eq (a : Word) {s : State} (h : memReadable s = true) :
    readByte a s =
      (memRead (addrLines a) s, emit (sampleEvents (memRead (addrLines a) s)) (afterAddress a s)) := by
  rw [readByte, setAddress_eq]
  exact sample_eq (s := afterAddress a s) h

end Sys2Proof.Machine
end

section
/-! SUPPORT. The obligations of 41_byte_access.md, settled from the laws above. -/

namespace Sys2Proof.Machine

/-- Settles O13: the check of R223 keeps `a` within the address lines, so the byte read is the array's at `a`. -/
theorem rdbyteReturnsStoredByte : Obligations.RdbyteReturnsStoredByte := by
  intro a s ha hs
  have hr : memReadable (loadAddr a (accept .rdbyte s)) = true := (memReadable_of_readable hs :)
  have hv : memRead (addrLines a) (loadAddr a (accept .rdbyte s)) = readCell s.mem a.toNat := by
    rw [memRead, addrLines_of_lt (by omega)]
    rfl
  rw [exec_rdbyte ha hs.dirIn, readByte_eq a hr, hv, readTrace_eq, afterAddress, emit_emit]
  rfl

/-- Settles O15: in its contract the write pulse appends one pair and nothing is committed. -/
theorem wrbyteJoinsGroup : Obligations.WrbyteJoinsGroup := by
  intro a v s ha hs
  have hc : pulseInContract (loadWdata v (loadAddr a (accept .wrbyte s))) = true :=
    (pulseInContract_of_writable hs :)
  rw [exec_wrbyte ha v hs.dirOut, writeByte_eq a v hc]
  rfl

end Sys2Proof.Machine
end

section
/-! SUPPORT. What the paced write run of 42_brackets_bulk.md does not depend on: a change of `OP`, `ADDR` or the pacing
rule commutes with it as long as the pacing tests it makes come out the same; and the write bracket around no bytes. -/

namespace Sys2Proof.Machine

/-! ### Views of an outcome -/

@[simp] theorem viewOutcome_next (f : State → State) (s : State) : viewOutcome f (.next s) = .next (f s) := rfl

theorem viewOutcome_viewOutcome (f g : State → State) (r : Result) :
    viewOutcome g (viewOutcome f r) = viewOutcome (fun s => g (f s)) r := by
  cases r <;> rfl

/-- A sequence commutes with a view when its first part does and its second part does wherever the first can lead. -/
theorem andThen_viewOutcome {f : State → State} {r r' : Result} {k l : State → Result} (hr : r' = viewOutcome f r)
    (h : ∀ t, r = .next t → k (f t) = viewOutcome f (l t)) : andThen r' k = viewOutcome f (andThen r l) := by
  subst hr
  cases r with
  | next t => exact h t rfl
  | fault e => rfl
  | refused e => rfl

/-! ### Changes a run does not see -/

/-- `OP`, `ADDR` and the pacing rule changed, each as a function of its old value. -/
def relabel (o : BitVec 4 → BitVec 4) (b : Word → Word) (q : PaceRule → PaceRule) (s : State) : State :=
  { s with op := o s.op, addr := b s.addr, config := { s.config with paceRule := q s.config.paceRule } }

section
variable (o : BitVec 4 → BitVec 4) (b : Word → Word) (q : PaceRule → PaceRule)

theorem storeAnyGroup_relabel (g : List Pulse) (s : State) :
    storeAnyGroup g (relabel o b q s) = relabel o b q (storeAnyGroup g s) := by
  induction g generalizing s with
  | nil => rfl
  | cons p g ih => exact ih (storeAny p.1 s)

/-- No case of R75 looks at `OP`, `ADDR` or the pacing rule. -/
theorem commitGroup_relabel (s : State) :
    commitGroup (relabel o b q s) = viewOutcome (relabel o b q) (commitGroup s) := by
  have hg : (relabel o b q s).group = s.group := rfl
  unfold commitGroup
  rw [hg, storeAnyGroup_relabel]
  cases classifyGroup s.group <;> rfl

theorem waitPage_relabel (s : State) :
    waitPage (relabel o b q s) = viewOutcome (relabel o b q) (waitPage s) :=
  commitGroup_relabel o b q (pageWaited s)

theorem writeByte_relabel (a : Word) (v : Byte) (s : State) :
    writeByte a v (relabel o b q s) = viewOutcome (relabel o b q) (writeByte a v s) := by
  cases hc : pulseInContract s with
  | true =>
    rw [writeByte_eq a v hc, writeByte_eq a v (s := relabel o b q s) hc]
    rfl
  | false =>
    rw [writeByte_refused a v hc, writeByte_refused a v (s := relabel o b q s) hc]
    rfl

theorem endWrite_relabel (s : State) :
    endWrite (relabel o b q s) = viewOutcome (relabel o b q) (endWrite s) := by
  rw [endWrite_eq, endWrite_eq]
  exact andThen_viewOutcome (waitPage_relabel o b q s) fun _ _ => rfl

end

/-- The two rules pace alike at the cursor `c` with `i` bytes written, and at every later turn of the run. -/
def PaceAlike (q r : PaceRule) (c : Word) (i : Nat) : Prop :=
  ∀ j : Nat, pace q (c + BitVec.ofNat 16 j) (i + j) = pace r (c + BitVec.ofNat 16 j) (i + j)

theorem PaceAlike.refl (r : PaceRule) (c : Word) (i : Nat) : PaceAlike r r c i := fun _ => rfl

theorem PaceAlike.here {q r : PaceRule} {c : Word} {i : Nat} (h : PaceAlike q r c i) : pace q c i = pace r c i := by
  simpa using h 0

theorem PaceAlike.succ {q r : PaceRule} {c : Word} {i : Nat} (h : PaceAlike q r c i) :
    PaceAlike q r (c + 1) (i + 1) := by
  intro j
  have hc : c + BitVec.ofNat 16 (1 + j) = c + 1 + BitVec.ofNat 16 j := by
    rw [BitVec.ofNat_add, ← BitVec.add_assoc]
    rfl
  have hj := h (1 + j)
  rwa [hc, ← Nat.add_assoc] at hj

theorem paceWait_frame {i : Nat} {s t : State} (h : paceWait i s = .next t) : WriteFrame s t := by
  rcases paceWait_cases h with ⟨-, hw⟩ | ⟨-, rfl⟩
  · exact waitPage_frame hw
  · exact .refl _

section
variable {o : BitVec 4 → BitVec 4} {b : Word → Word} {q : PaceRule → PaceRule}

theorem paceWait_relabel {i : Nat} {s : State}
    (h : pace (q s.config.paceRule) s.cur i = pace s.config.paceRule s.cur i) :
    paceWait i (relabel o b q s) = viewOutcome (relabel o b q) (paceWait i s) := by
  have hp : pace (relabel o b q s).config.paceRule (relabel o b q s).cur i = pace s.config.paceRule s.cur i := h
  unfold paceWait
  rw [hp]
  split
  · exact waitPage_relabel o b q s
  · rfl

/-- The loop of R176 sees only its own pacing tests. -/
theorem writeRun_relabel {p : List Byte} {i : Nat} {s : State}
    (h : PaceAlike (q s.config.paceRule) s.config.paceRule s.cur i) :
    writeRun p i (relabel o b q s) = viewOutcome (relabel o b q) (writeRun p i s) := by
  induction p generalizing i s with
  | nil => rfl
  | cons v p ih =>
    rw [writeRun, writeRun]
    refine andThen_viewOutcome (writeByte_relabel o b q s.cur v s) fun t ht => ?_
    obtain ⟨-, rfl⟩ := writeByte_cases ht
    refine andThen_viewOutcome (paceWait_relabel (s := advanceCursor (afterWrite s.cur v s)) h.succ.here) fun u hu => ?_
    refine ih ?_
    rw [(paceWait_latch hu).2, (paceWait_frame hu).config]
    exact h.succ

/-- The body of R176 and R178, with its completion record. -/
theorem pacedWrite_relabel {a : Word} {p : List Byte} {s : State}
    (h : PaceAlike (q s.config.paceRule) s.config.paceRule a 0) :
    (andThen (pacedWrite a p (relabel o b q s)) fun s => .next (completeWith statusOk false s)) =
      viewOutcome (relabel o b q) (andThen (pacedWrite a p s) fun s => .next (completeWith statusOk false s)) := by
  refine andThen_viewOutcome ?_ fun _ _ => rfl
  refine andThen_viewOutcome (writeRun_relabel (s := runStart a p s) h) fun u _ => ?_
  exact andThen_viewOutcome (endWrite_relabel o b q u) fun _ _ => rfl

end

/-! ### Requests that run alike -/

/-- The pacing rule replaced by `r`. -/
def repace (r : PaceRule) : State → State := relabel id id fun _ => r

theorem exec_bulkwr_repace {r : PaceRule} {a : Word} {p : List Byte} {s : State}
    (h : PaceAlike r s.config.paceRule a 0) :
    exec (.bulkwr a p) (repace r s) = viewOutcome (repace r) (exec (.bulkwr a p) s) := by
  cases hr : refusalStatus (.bulkwr a p) s.dir with
  | some c =>
    rw [exec_refused hr, exec_refused (s := repace r s) hr]
    rfl
  | none =>
    obtain ⟨ha, hn, hd⟩ := refusalStatus_bulkwr hr
    rw [exec_bulkwr ha hn hd, exec_bulkwr (s := repace r s) ha hn hd]
    exact pacedWrite_relabel (o := id) (b := id) (q := fun _ => r) (s := bulkAccepted a p s) h

theorem exec_erase_repace {r : PaceRule} {n : Word} {s : State} (h : PaceAlike r s.config.paceRule 0 0) :
    exec (.erase n) (repace r s) = viewOutcome (repace r) (exec (.erase n) s) := by
  cases hr : refusalStatus (.erase n) s.dir with
  | some c =>
    rw [exec_refused hr, exec_refused (s := repace r s) hr]
    rfl
  | none =>
    obtain ⟨hn, hd⟩ := refusalStatus_erase hr
    rw [exec_erase hn hd, exec_erase (s := repace r s) hn hd]
    exact pacedWrite_relabel (o := id) (b := id) (q := fun _ => r) (s := eraseAccepted n s) h

/-- `OP` and `ADDR` blanked: all that an accepted erase and the bulk write that fills alike load differently (R178). -/
def blankRequest : State → State := relabel (fun _ => 0) (fun _ => 0) id

theorem blankRequest_eraseAccepted (n : Word) (v : Byte) (s : State) :
    blankRequest (eraseAccepted n s) = blankRequest (bulkAccepted 0 (List.replicate n.toNat v) s) := by
  have hlen : BitVec.ofNat 16 (List.replicate n.toNat v).length = n := by simp
  rw [bulkAccepted, hlen]
  rfl

/-- R178: an erase is refused for the causes of the bulk write that fills alike. -/
theorem refusalStatus_bulkwr_fill (n : Word) (v : Byte) (d : Dir) :
    refusalStatus (.bulkwr 0 (List.replicate n.toNat v)) d = refusalStatus (.erase n) d := by
  simp [refusalStatus]

/-! ### The pacing rules -/

theorem pace_byteCount (c : Word) (n : Nat) : pace .byteCount c n = decide (n % 64 = 0) := by
  have h : n &&& 0x3F = n % 64 := Nat.and_two_pow_sub_one_eq_mod n 6
  rw [pace, h]
  rfl

theorem pace_writtenAddress (c : Word) (n : Nat) : pace .writtenAddress c n = decide ((c - 1).toNat % 64 = 0) :=
  pace_nextAddress (c - 1) n

/-- R177: from a page-aligned start the next address and the count of bytes written reach a boundary together. -/
theorem paceAlike_of_aligned {a : Word} (h : a.toNat % 64 = 0) : PaceAlike .byteCount .nextAddress a 0 := by
  intro j
  rw [pace_byteCount, pace_nextAddress, BitVec.toNat_add, BitVec.toNat_ofNat]
  congr 2
  omega

/-! ### No bytes between the brackets -/

/-- The state that the bracket around no bytes leaves (R179). -/
def afterNoBytes (s : State) : State :=
  emit (beginTrace ++ endTrace) { s with
    cur := Config.freeBits 16 s.draws, rem := Config.freeBits 16 (s.draws + 1), draws := s.draws + 2
    oeN := false, ledProg := false, tmrPage := 0 }

theorem forgetCursor_closeBracket_pageWaited (s : State) :
    forgetCursor (closeBracket (pageWaited s)) = emit endTrace { s with
      cur := Config.freeBits 16 s.draws, rem := Config.freeBits 16 (s.draws + 1), draws := s.draws + 2
      dir := .input, oeN := false, ledProg := false, tmrPage := 0 } := rfl

/-- R179: with an empty group the one page wait commits nothing, whatever the pins and the pacing rule. -/
theorem pacedWrite_nil (a : Word) {s : State} (hd : s.dir = .input) (hg : s.group = []) :
    pacedWrite a [] s = .next (afterNoBytes s) := by
  have hw : waitPage (runStart a [] s) = .next (pageWaited (runStart a [] s)) := waitPage_nil hg
  show andThen (endWrite (runStart a [] s)) _ = _
  rw [endWrite_eq, hw, andThen_next, andThen_next, forgetCursor_closeBracket_pageWaited, runStart_eq, ← hd]
  rfl

theorem exec_bulkwr_nil {a : Word} {s : State} (ha : a.toNat ≤ 0x7FFF) (hd : s.dir = .input) (hg : s.group = []) :
    exec (.bulkwr a []) s = .next (completeWith statusOk false (afterNoBytes (bulkAccepted a [] s))) := by
  have hn : a.toNat + ([] : List Byte).length ≤ 0x8000 := Nat.le_succ_of_le ha
  have hrun : pacedWrite a [] (bulkAccepted a [] s) = .next _ := pacedWrite_nil a hd hg
  rw [exec_bulkwr ha hn hd]
  exact congrArg (andThen · _) hrun

theorem exec_erase_zero {s : State} (hd : s.dir = .input) (hg : s.group = []) :
    exec (.erase 0) s = .next (completeWith statusOk false (afterNoBytes (eraseAccepted 0 s))) := by
  have hrun : pacedWrite 0 [] (eraseAccepted 0 s) = .next _ := pacedWrite_nil 0 hd hg
  rw [exec_erase (Nat.zero_le _) hd]
  exact congrArg (andThen · _) hrun

/-! ### The frame of a run from a closed bracket -/

theorem State.Closed.bulkAccepted {s : State} (h : s.Closed) (a : Word) (p : List Byte) : (bulkAccepted a p s).Closed :=
  { h with }

theorem State.Closed.eraseAccepted {s : State} (h : s.Closed) (n : Word) : (eraseAccepted n s).Closed := { h with }

/-- From a closed bracket the direction of the data pins and write enable are back where they were. -/
theorem afterPaced_frame_of_closed {a : Word} {p : List Byte} {s : State} (hs : s.Closed)
    (hn : a.toNat + p.length ≤ 0x8000) :
    afterPaced a p s = { s with
      cur := (afterPaced a p s).cur, rem := (afterPaced a p s).rem, draws := (afterPaced a p s).draws
      sr := (afterPaced a p s).sr, al := (afterPaced a p s).al, ser := (afterPaced a p s).ser
      srclk := (afterPaced a p s).srclk, rclk := (afterPaced a p s).rclk, dout := (afterPaced a p s).dout
      tmrWe := (afterPaced a p s).tmrWe, tmrPage := 0, oeN := false, ledProg := false
      mem := (afterPaced a p s).mem, traceRev := (afterPaced a p s).traceRev } := by
  have h := afterPaced_frame a p s hs.noGroup
  rw [afterPaced_weN hn hs.weHigh, ← hs.weHigh, ← hs.dirIn] at h
  exact h

end Sys2Proof.Machine
end

section
/-! SUPPORT. The obligations of 42_brackets_bulk.md, settled from the laws above. -/

namespace Sys2Proof.Machine

/-- Settles O26: the two runs make the same pacing tests, because the cursor and the count start on a boundary. -/
theorem pacingReadingsAgreeWhenAligned : Obligations.PacingReadingsAgreeWhenAligned := by
  intro s
  constructor
  · intro a p ha
    have h := exec_bulkwr_repace (p := p) (s := repace .nextAddress s) (paceAlike_of_aligned ha)
    exact (congrArg _ h).trans (viewOutcome_viewOutcome (repace .byteCount) _ _)
  · intro n
    have h := exec_erase_repace (n := n) (s := repace .nextAddress s) (paceAlike_of_aligned rfl)
    exact (congrArg _ h).trans (viewOutcome_viewOutcome (repace .byteCount) _ _)

/-- Settles O29: both are refused for the same causes, and past them they run the same loop on states that differ in
`OP` and `ADDR` only. -/
theorem eraseIsBulkFill : Obligations.EraseIsBulkFill := by
  intro n s
  have hstatus := refusalStatus_bulkwr_fill n 0xFF s.dir
  cases hr : refusalStatus (.erase n) s.dir with
  | some c => rw [exec_refused hr, exec_refused (hstatus.trans hr)]
  | none =>
    obtain ⟨hn, hd⟩ := refusalStatus_erase hr
    obtain ⟨ha, hspan, -⟩ := refusalStatus_bulkwr (hstatus.trans hr)
    rw [exec_erase hn hd, exec_bulkwr ha hspan hd]
    calc
      _ = andThen (pacedWrite 0 _ (blankRequest (eraseAccepted n s))) _ :=
        (pacedWrite_relabel (q := id) (.refl _ _ _)).symm
      _ = andThen (pacedWrite 0 _ (blankRequest (bulkAccepted 0 _ s))) _ := by rw [blankRequest_eraseAccepted]
      _ = _ := pacedWrite_relabel (q := id) (.refl _ _ _)

/-- Settles O28: a completed run has the paced trace whatever the pins were, and its page waits are counted along the
payload. -/
theorem bulkwrTraceIsPaced : Obligations.BulkwrTraceIsPaced := by
  intro a p s t ha hn hd hr h
  obtain ⟨u, w, hu, hw, rfl⟩ := exec_bulkwr_cases ha hn hd h
  refine ⟨?_, ?_, ?_⟩
  · have hrun : u.trace = (runStart a p s).trace ++ pacedTrace a.toNat p :=
      writeRun_trace (s := runStart a p (bulkAccepted a p s)) hr hn hu
    have hclose : (closeBracket w).trace = u.trace ++ endTrace := by
      rw [waitPage_cases hw]
      exact trace_emit endTrace u
    show (closeBracket w).trace = _
    rw [hclose, hrun]
    exact congrArg (· ++ _ ++ _) (trace_emit beginTrace s)
  · rw [List.count_append, List.count_append, pacedTrace_count, show beginTrace.count .waitPage = 0 from rfl,
      show endTrace.count .waitPage = 1 from rfl, Nat.zero_add]
  · rw [List.length_append, List.length_append, pacedTrace_length, show beginTrace.length = 3 from rfl,
      show endTrace.length = 4 from rfl]
    omega

/-- Settles O31: with an empty group the one page wait commits nothing. -/
theorem zeroLengthTouchesNothing : Obligations.ZeroLengthTouchesNothing := by
  intro a s ha hd hg
  exact ⟨⟨_, exec_bulkwr_nil ha hd hg, rfl⟩, ⟨_, exec_erase_zero hd hg, rfl⟩⟩

/-- Settles O27, from the run's array, its last pins and its frame; with no byte the pins are the old ones. -/
theorem bulkwrStoresPayload : Obligations.BulkwrStoresPayload := by
  intro a p s ha hn hs hm hr
  refine ⟨_, exec_bulkwr_run ha hn hs hr, fun hsdp => ?_, fun hsdp => ⟨?_, fun j hj => ?_, fun b hb => ?_⟩,
    fun hp => ?_, ?_⟩
  · exact afterPaced_mem_protected a p (s := bulkAccepted a p s) hsdp
  · exact afterPaced_wf a p (s := bulkAccepted a p s) hm
  · rw [completeWith_mem, readCell_afterPaced (s := bulkAccepted a p s) hn hs.noGroup hm hsdp, dif_pos (by omega)]
    simp
  · rw [completeWith_mem, readCell_afterPaced (s := bulkAccepted a p s) hn hs.noGroup hm hsdp, dif_neg (by omega)]
    rfl
  · obtain ⟨hal, hdout, -⟩ := afterPaced_pins (bulkAccepted a p s) hp hn
    exact ⟨hal, hdout⟩
  · have hframe := afterPaced_frame_of_closed (hs.bulkAccepted a p) hn
    by_cases hp : p = []
    · subst hp
      obtain ⟨hal, hdout, hsr, hser, hsrclk, hrclk, -, htmr⟩ := afterPaced_pins_nil a (bulkAccepted a [] s)
      rw [hal, hdout, hsr, hser, hsrclk, hrclk, htmr] at hframe
      exact congrArg (completeWith statusOk false) hframe
    · obtain ⟨-, -, hsr, hser, hsrclk, hrclk, -, htmr⟩ := afterPaced_pins (bulkAccepted a p s) hp hn
      rw [hsr, hser, hsrclk, hrclk, htmr] at hframe
      simp only [if_neg hp]
      exact congrArg (completeWith statusOk false) hframe

/-- Settles O30, from the same run on a payload of bytes `0xFF`. -/
theorem eraseFillsRange : Obligations.EraseFillsRange := by
  intro n s hn hs hm hr
  have hlen : (0 : Word).toNat + (List.replicate n.toNat (0xFF : Byte)).length ≤ 0x8000 := by simpa using hn
  refine ⟨_, exec_erase_run hn hs hr, fun hsdp => ?_, fun hsdp b => ?_, ?_, ?_⟩
  · exact afterPaced_mem_protected 0 _ (s := eraseAccepted n s) hsdp
  · rw [completeWith_mem, readCell_afterPaced (s := eraseAccepted n s) hlen hs.noGroup hm hsdp]
    simp
  · exact afterPaced_trace (eraseAccepted n s) hlen
  · exact congrArg (completeWith statusOk false) (afterPaced_frame_of_closed (hs.eraseAccepted n) hlen)

/-- Settles O17, by the direction of the data pins, which is the state of the bracket. -/
theorem beginwrOpensBracket : Obligations.BeginwrOpensBracket := by
  intro s
  split
  · next hd => exact exec_beginwr hd
  · next hd => exact exec_refused (if_neg hd)

/-- Settles O18: neither request tests the state. -/
theorem readBracketMovesIndicatorOnly : Obligations.ReadBracketMovesIndicatorOnly :=
  fun _ => ⟨rfl, rfl⟩

/-- Settles O19, by the commit of the empty group. -/
theorem endwrClosesEmptyBracket : Obligations.EndwrClosesEmptyBracket := by
  intro s hd hg
  exact exec_endwr_of_commit hd (commitGroup_nil (s := pageWaited (accept .endwr s)) hg)

/-- Settles O25: the mask `0x3F` leaves the remainder by 64. -/
theorem pacingPredicateReadings : Obligations.PacingPredicateReadings := by
  intro c n
  simp only [pace_nextAddress, pace_byteCount, pace_writtenAddress, decide_eq_true_eq, iff_self, and_self]

end Sys2Proof.Machine
end

section
/-! SUPPORT. What no operation but a byte read can see of the chip (R204), and the two exact sequences, issued by the
sequencer or by raw byte writes (R202, R203, R205). -/

namespace Sys2Proof.Machine

/-! ### Operations that do not see the chip -/

/-- What `k` answers, seen without the chip's contents, is a function of the state without them (R204). -/
def BlindToDevice (k : State → Result) : Prop :=
  ∀ s : State, viewOutcome State.forgetDevice (k s.forgetDevice) = viewOutcome State.forgetDevice (k s)

/-- A plain update that commutes with forgetting the chip. -/
theorem BlindToDevice.next {f : State → State} (h : ∀ s : State, f s.forgetDevice = (f s).forgetDevice) :
    BlindToDevice fun s => .next (f s) := by
  intro s
  show viewOutcome _ (.next (f s.forgetDevice)) = _
  rw [h]
  rfl

/-- What follows a first part needs of its outcome only the view without the chip. -/
theorem BlindToDevice.andThen_view {l : State → Result} (hl : BlindToDevice l) (r : Result) :
    viewOutcome State.forgetDevice (Machine.andThen (viewOutcome State.forgetDevice r) l) =
      viewOutcome State.forgetDevice (Machine.andThen r l) := by
  cases r with
  | next t => exact hl t
  | fault e => rfl
  | refused e => rfl

theorem BlindToDevice.andThen {k l : State → Result} (hk : BlindToDevice k) (hl : BlindToDevice l) :
    BlindToDevice fun s => Machine.andThen (k s) l := by
  intro s
  show viewOutcome _ (Machine.andThen (k s.forgetDevice) l) = viewOutcome _ (Machine.andThen (k s) l)
  rw [← hl.andThen_view, hk, hl.andThen_view]

theorem completeWith_blind (st : Byte) : BlindToDevice fun s => .next (completeWith st false s) := .next fun _ => rfl

/-- A pulse is sent, or the run stops, for the pins alone. -/
theorem writeByte_blind (a : State → Word) (v : Byte) (ha : ∀ s : State, a s.forgetDevice = a s) :
    BlindToDevice fun s => writeByte (a s) v s := by
  intro s
  show viewOutcome _ (writeByte (a s.forgetDevice) v s.forgetDevice) = viewOutcome _ (writeByte (a s) v s)
  rw [ha]
  cases hc : pulseInContract s with
  | true =>
    rw [writeByte_eq _ v hc, writeByte_eq _ v (s := s.forgetDevice) hc]
    rfl
  | false => rw [writeByte_refused _ v hc, writeByte_refused _ v (s := s.forgetDevice) hc]

/-- The case of R75 is the group's alone, and outside the chip each case leaves the same. -/
theorem commitGroup_blind : BlindToDevice commitGroup := by
  intro s
  have hg : s.forgetDevice.group = s.group := rfl
  unfold commitGroup
  rw [hg, storeAnyGroup_eq _ s, storeAnyGroup_eq _ s.forgetDevice]
  cases classifyGroup s.group <;> rfl

theorem waitPage_blind : BlindToDevice waitPage := by
  intro s
  rw [waitPage_eq, waitPage_eq]
  exact commitGroup_blind (pageWaited s)

theorem endWrite_blind : BlindToDevice endWrite := waitPage_blind.andThen (.next fun _ => rfl)

theorem paceWait_blind (i : Nat) : BlindToDevice (paceWait i) := by
  intro s
  have hp : pace s.forgetDevice.config.paceRule s.forgetDevice.cur i = pace s.config.paceRule s.cur i := rfl
  unfold paceWait
  rw [hp]
  split
  · exact waitPage_blind s
  · rfl

/-- The loop of R176, whatever it writes. -/
theorem writeRun_blind (p : List Byte) (i : Nat) : BlindToDevice (writeRun p i) := by
  induction p generalizing i with
  | nil => exact .next fun _ => rfl
  | cons v p ih =>
    have hwrite : BlindToDevice fun s => writeByte s.cur v s := writeByte_blind State.cur v fun _ => rfl
    have hpace : BlindToDevice fun s => paceWait (i + 1) (advanceCursor s) :=
      fun s => paceWait_blind (i + 1) (advanceCursor s)
    exact hwrite.andThen (hpace.andThen (ih (i + 1)))

theorem pacedWrite_blind (a : Word) (p : List Byte) : BlindToDevice (pacedWrite a p) := by
  have hrun : BlindToDevice fun s => writeRun p 0 (runStart a p s) := fun s => writeRun_blind p 0 (runStart a p s)
  exact hrun.andThen (endWrite_blind.andThen (.next fun _ => rfl))

/-- The table walk of R202 and R203. -/
theorem writeTable_blind (table : List (Word × Byte)) (k : Nat) : BlindToDevice (writeTable table k) := by
  induction table generalizing k with
  | nil => exact .next fun _ => rfl
  | cons e table ih =>
    have hwrite : BlindToDevice fun s => writeByte e.1 e.2 (setIndex k s) :=
      fun s => writeByte_blind (fun _ => e.1) e.2 (fun _ => rfl) (setIndex k s)
    exact hwrite.andThen (ih (k + 1))

theorem issueSequence_blind (table : List (Word × Byte)) : BlindToDevice (issueSequence table) := by
  have hwalk : BlindToDevice fun s => writeTable table 0 (beginWrite s) :=
    fun s => writeTable_blind table 0 (beginWrite s)
  exact hwalk.andThen (endWrite_blind.andThen (.next fun _ => rfl))

/-- R204: every request but a byte read, refused or executed. -/
theorem exec_blind {i : Instr} (hi : ∀ a, i ≠ .rdbyte a) : BlindToDevice (exec i) := by
  intro s
  cases hr : refusalStatus i s.dir with
  | some c =>
    rw [exec_refused hr, exec_refused (s := s.forgetDevice) hr]
    rfl
  | none =>
    cases i with
    | setaddr a =>
      have ha := refusalStatus_setaddr hr
      rw [exec_setaddr ha, exec_setaddr ha, setAddress_eq, setAddress_eq]
      rfl
    | rdbyte a => exact absurd rfl (hi a)
    | wrbyte a v =>
      obtain ⟨ha, hd⟩ := refusalStatus_wrbyte hr
      rw [exec_wrbyte ha v hd, exec_wrbyte (s := s.forgetDevice) ha v hd]
      exact (writeByte_blind (fun _ => a) v fun _ => rfl).andThen (completeWith_blind statusOk)
        (loadWdata v (loadAddr a (accept .wrbyte s)))
    | beginrd | endrd => rfl
    | beginwr =>
      have hd := refusalStatus_beginwr hr
      rw [exec_beginwr hd, exec_beginwr (s := s.forgetDevice) hd]
      rfl
    | endwr =>
      have hd := refusalStatus_endwr hr
      rw [exec_endwr hd, exec_endwr (s := s.forgetDevice) hd]
      exact endWrite_blind.andThen (completeWith_blind statusOk) (accept .endwr s)
    | bulkwr a p =>
      obtain ⟨ha, hn, hd⟩ := refusalStatus_bulkwr hr
      rw [exec_bulkwr ha hn hd, exec_bulkwr (s := s.forgetDevice) ha hn hd]
      exact (pacedWrite_blind a p).andThen (completeWith_blind statusOk) (bulkAccepted a p s)
    | erase n =>
      obtain ⟨hn, hd⟩ := refusalStatus_erase hr
      rw [exec_erase hn hd, exec_erase (s := s.forgetDevice) hn hd]
      exact (pacedWrite_blind 0 _).andThen (completeWith_blind statusOk) (eraseAccepted n s)
    | sdpen =>
      have hd := refusalStatus_sdpen hr
      rw [exec_sdpen hd, exec_sdpen (s := s.forgetDevice) hd]
      exact (issueSequence_blind sdpEnTable).andThen (completeWith_blind statusOk) (accept .sdpen s)
    | sdpdis =>
      have hd := refusalStatus_sdpdis hr
      rw [exec_sdpdis hd, exec_sdpdis (s := s.forgetDevice) hd]
      exact (issueSequence_blind sdpDisTable).andThen (completeWith_blind statusOk) (accept .sdpdis s)

/-! ### What a byte read shows of the chip -/

theorem memReadable_afterPin (s : State) : memReadable (afterPin s) = memReadable s := by
  unfold afterPin
  split <;> rfl

theorem afterPin_draws (s : State) : (afterPin s).draws = s.draws + if memReadable s then 0 else 1 := by
  unfold afterPin
  split <;> rfl

/-- Samples draw one free value each, or none: the precondition of `MemRead` decides, not the chip's contents. -/
theorem foldl_sampleBit_draws (ks : List (Fin 8)) (u : Byte × State) :
    (ks.foldl sampleBit u).2.draws = u.2.draws + if memReadable u.2 then 0 else ks.length := by
  induction ks generalizing u with
  | nil => simp
  | cons k ks ih =>
    have hr : memReadable (sampleBit u k).2 = memReadable u.2 := memReadable_afterPin u.2
    have hd : (sampleBit u k).2.draws = u.2.draws + if memReadable u.2 then 0 else 1 := afterPin_draws u.2
    rw [List.foldl_cons, ih, hr, hd]
    split
    · rfl
    · rw [List.length_cons]
      omega

theorem sample_draws (s : State) : (sample s).2.draws = s.draws + if memReadable s then 0 else 8 :=
  foldl_sampleBit_draws [7, 6, 5, 4, 3, 2, 1, 0] (0, s)

theorem sample_traceRev (s : State) :
    (sample s).2.traceRev = (sampleEvents (sample s).1).reverseAux s.traceRev := by
  have h := congrArg List.reverse (sample_trace s)
  simpa [State.trace, List.reverseAux_eq] using h

/-- With the levels forgotten, eight samples are eight samples of any byte (R152). -/
theorem sample_forgetReads (s : State) :
    (sample s).2.forgetReads =
      (emit (sampleEvents 0) { s with draws := s.draws + if memReadable s then 0 else 8 }).forgetReads := by
  rw [sample_frame, sample_traceRev, sample_draws]
  rfl

theorem forgetReads_completeWith_setRdata (st v : Byte) (s : State) :
    (completeWith st true (setRdata v s)).forgetReads = completeWith st false s.forgetReads := rfl

/-- R204: only the sampled levels and the byte they make depend on the device. -/
theorem exec_rdbyte_forgetReads (a : Word) (s : State) :
    viewOutcome State.forgetReads (exec (.rdbyte a) s.forgetDevice) =
      viewOutcome State.forgetReads (exec (.rdbyte a) s) := by
  cases hr : refusalStatus (.rdbyte a) s.dir with
  | some c =>
    rw [exec_refused hr, exec_refused (s := s.forgetDevice) hr]
    rfl
  | none =>
    obtain ⟨ha, hd⟩ := refusalStatus_rdbyte hr
    rw [exec_rdbyte ha hd, exec_rdbyte (s := s.forgetDevice) ha hd]
    simp only [viewOutcome_next, forgetReads_completeWith_setRdata, readByte, sample_forgetReads, setAddress_eq]
    rfl

/-! ### The exact sequences -/

/-- The writes of `table`, the last of them `last`, are ones the chip takes for an exact sequence, and they leave `SDP` at
`sdp` (R78, R79). -/
structure ExactSequence (table : List (Word × Byte)) (last : Word × Byte) (sdp : Bool) : Prop where
  endsWith : ∃ init, table = init ++ [last]
  inArray : ∀ e ∈ table, e.1.toNat ≤ 0x7FFF
  commits : ∀ u : State, u.group = table.map pulseOf →
    commitGroup u = .next { u with mem := storeSequence last.2 u, sdp := sdp, group := [] }

theorem exactSequence_enable : ExactSequence sdpEnTable (0x5555, 0xA0) true where
  endsWith := ⟨sdpEnTable.take 2, rfl⟩
  inArray := by simp [sdpEnTable]
  commits u hu := commitGroup_enable (by rw [hu, enableGroup_eq, classifyGroup_enable])

theorem exactSequence_disable : ExactSequence sdpDisTable (0x5555, 0x20) false where
  endsWith := ⟨sdpDisTable.take 5, rfl⟩
  inArray := by simp [sdpDisTable]
  commits u hu := commitGroup_disable (by rw [hu, disableGroup_eq, classifyGroup_disable])

/-- The bytes stored depend on the chip and on `SDP_SEQ_STORES` alone. -/
theorem storeSequence_congr (last : Byte) {s t : State} (hmem : t.mem = s.mem) (hsdp : t.sdp = s.sdp)
    (hconfig : t.config = s.config) : storeSequence last t = storeSequence last s := by
  rw [storeSequence, hmem, hsdp, hconfig, storeSequence]

/-- The state a sequence in its own bracket leaves when its commit has left `mem` and `sdp` (R202, R203). -/
def afterSequence (table : List (Word × Byte)) (last : Word × Byte) (mem : Memory) (sdp : Bool) (s : State) : State :=
  emit (beginTrace ++ sequenceTrace table ++ endTrace) { s with
    idx := Config.freeBits 3 s.draws, draws := s.draws + 1, sr := last.1, al := last.1, ser := last.1.getLsbD 0
    srclk := false, rclk := false, dout := last.2, tmrWe := 0, tmrPage := 0, oeN := false, ledProg := false
    mem := mem, sdp := sdp }

/-- What `Closed` says of a state, as an equation: writing these values changes nothing. -/
theorem State.Closed.write_eq {s : State} (h : s.Closed) :
    { s with dir := .input, weN := true, group := [] } = s := by
  rw [← h.dirIn, ← h.weHigh, ← h.noGroup]

theorem forgetIndex_closeBracket_committed (mem : Memory) (sdp : Bool) (s : State) :
    forgetIndex (closeBracket { pageWaited s with mem := mem, sdp := sdp, group := [] }) =
      emit endTrace { s with
        idx := Config.freeBits 3 s.draws, draws := s.draws + 1, dir := .input, oeN := false, ledProg := false
        tmrPage := 0, mem := mem, sdp := sdp, group := [] } := rfl

/-- A table walk in the bracket that the sequencer opens (R182, R202, R203). -/
theorem afterTable_beginWrite (init : List (Word × Byte)) (last : Word × Byte) (s : State) :
    afterTable init last 0 (beginWrite s) =
      emit (beginTrace ++ sequenceTrace (init ++ [last])) { s with
        idx := BitVec.ofNat 3 (0 + init.length), ser := last.1.getLsbD 0, srclk := false, rclk := false, sr := last.1
        al := last.1, dout := last.2, weN := true, tmrWe := 0, ledProg := true, dir := .output, oeN := true
        group := s.group ++ (init ++ [last]).map pulseOf } := by
  rw [beginWrite_eq, ← emit_emit]
  rfl

/-- The bracket closed on a table walk whose group has been committed. -/
theorem forgetIndex_closeBracket_afterTable (init : List (Word × Byte)) (last : Word × Byte) (mem : Memory) (sdp : Bool)
    (s : State) :
    forgetIndex (closeBracket
      { pageWaited (afterTable init last 0 (beginWrite s)) with mem := mem, sdp := sdp, group := [] }) =
    afterSequence (init ++ [last]) last mem sdp { s with dir := .input, weN := true, group := [] } := by
  rw [forgetIndex_closeBracket_committed, afterTable_beginWrite, afterSequence,
    ← emit_emit (beginTrace ++ sequenceTrace (init ++ [last])) endTrace]
  rfl

/-- From a closed bracket an exact sequence completes, whatever the chip's protection. -/
theorem issueSequence_eq {table : List (Word × Byte)} {last : Word × Byte} {sdp : Bool} {s : State}
    (h : ExactSequence table last sdp) (hs : s.Closed) :
    issueSequence table s = .next (afterSequence table last (storeSequence last.2 s) sdp s) := by
  obtain ⟨init, rfl⟩ := h.endsWith
  have hc : pulseInContract (beginWrite s) = true := pulseInContract_of_writable ⟨rfl, rfl, hs.weHigh⟩
  have hg : (pageWaited (afterTable init last 0 (beginWrite s))).group = (init ++ [last]).map pulseOf := by
    rw [pageWaited_group, afterTable_beginWrite, emit_group, hs.noGroup, List.nil_append]
  have hstore : storeSequence last.2 (pageWaited (afterTable init last 0 (beginWrite s))) = storeSequence last.2 s := by
    rw [afterTable_beginWrite]
    exact storeSequence_congr last.2 rfl rfl rfl
  rw [issueSequence, writeTable_run init last 0 hc, andThen_next, endWrite_eq, waitPage_eq, h.commits _ hg, hstore,
    andThen_next, andThen_next, forgetIndex_closeBracket_afterTable, hs.write_eq]

/-- The state an operation of the sequencer leaves. -/
def sequencerDone (o : Op) (table : List (Word × Byte)) (last : Word × Byte) (sdp : Bool) (s : State) : State :=
  completeWith statusOk false (afterSequence table last (storeSequence last.2 s) sdp (accept o s))

theorem sequencerDone_eq (o : Op) (table : List (Word × Byte)) (last : Word × Byte) (sdp : Bool) (s : State) :
    sequencerDone o table last sdp s = emit (beginTrace ++ sequenceTrace table ++ endTrace) { s with
      op := o.code, status := 0x00, busy := false, recordsRev := [0x00] :: s.recordsRev
      idx := Config.freeBits 3 s.draws, draws := s.draws + 1, sr := last.1, al := last.1, ser := last.1.getLsbD 0
      srclk := false, rclk := false, dout := last.2, tmrWe := 0, tmrPage := 0, oeN := false, ledProg := false
      sdp := sdp, mem := storeSequence last.2 s } := rfl

theorem exec_sdpen_eq {s : State} (hs : s.Closed) :
    exec .sdpen s = .next (sequencerDone .sdpen sdpEnTable (0x5555, 0xA0) true s) := by
  have hstore : storeSequence 0xA0 (accept .sdpen s) = storeSequence 0xA0 s := storeSequence_congr 0xA0 rfl rfl rfl
  rw [exec_sdpen hs.dirIn, issueSequence_eq exactSequence_enable (hs.accept .sdpen), andThen_next, sequencerDone, hstore]

theorem exec_sdpdis_eq {s : State} (hs : s.Closed) :
    exec .sdpdis s = .next (sequencerDone .sdpdis sdpDisTable (0x5555, 0x20) false s) := by
  have hstore : storeSequence 0x20 (accept .sdpdis s) = storeSequence 0x20 s := storeSequence_congr 0x20 rfl rfl rfl
  rw [exec_sdpdis hs.dirIn, issueSequence_eq exactSequence_disable (hs.accept .sdpdis), andThen_next, sequencerDone,
    hstore]

/-! ### Raw sequences -/

/-- The writes of a table as requests in a bracket of the host's own (R205). -/
def rawSequence (table : List (Word × Byte)) : List Instr :=
  .beginwr :: (table.map (fun e => .wrbyte e.1 e.2) ++ [.endwr])

/-- From `s` to `t` the chip has received the writes of `table` in an open bracket and has committed nothing. -/
structure Wrote (table : List (Word × Byte)) (s t : State) : Prop where
  writable : t.Writable
  trace : t.trace = s.trace ++ sequenceTrace table
  group : t.group = s.group ++ table.map pulseOf
  mem : t.mem = s.mem
  sdp : t.sdp = s.sdp
  config : t.config = s.config

theorem execAll_cons {i : Instr} {is : List Instr} {s t : State} (h : exec i s = .next t) :
    execAll (i :: is) s = execAll is t := by
  rw [execAll, h]

/-- A byte write in an open bracket, as a request of its own (R154). -/
theorem exec_wrbyte_wrote {e : Word × Byte} {s : State} (ha : e.1.toNat ≤ 0x7FFF) (hs : s.Writable) :
    ∃ t, exec (.wrbyte e.1 e.2) s = .next t ∧ Wrote [e] s t := by
  refine ⟨_, wrbyteJoinsGroup e.1 e.2 s ha hs, ⟨hs.dirOut, hs.oeHigh, rfl⟩, ?_, rfl, rfl, rfl, rfl⟩
  rw [trace_emit, sequenceTrace, List.flatMap_singleton]
  rfl

theorem Wrote.trans {table rest : List (Word × Byte)} {s t u : State} (h : Wrote table s t) (k : Wrote rest t u) :
    Wrote (table ++ rest) s u where
  writable := k.writable
  trace := by rw [k.trace, h.trace, sequenceTrace, sequenceTrace, sequenceTrace, List.flatMap_append, List.append_assoc]
  group := by rw [k.group, h.group, List.map_append, List.append_assoc]
  mem := k.mem.trans h.mem
  sdp := k.sdp.trans h.sdp
  config := k.config.trans h.config

/-- Byte writes inside the array, one request each, with any requests after them. -/
theorem execAll_wrbytes {table : List (Word × Byte)} {s : State} (ha : ∀ e ∈ table, e.1.toNat ≤ 0x7FFF)
    (hs : s.Writable) (is : List Instr) :
    ∃ t, execAll (table.map (fun e => .wrbyte e.1 e.2) ++ is) s = execAll is t ∧ Wrote table s t := by
  induction table generalizing s with
  | nil => exact ⟨s, rfl, hs, by simp [sequenceTrace], by simp, rfl, rfl, rfl⟩
  | cons e table ih =>
    obtain ⟨t, ht, hfirst⟩ := exec_wrbyte_wrote (ha e List.mem_cons_self) hs
    obtain ⟨u, hu, hrest⟩ := ih (fun d hd => ha d (List.mem_cons_of_mem e hd)) hfirst.writable
    exact ⟨u, (execAll_cons ht).trans hu, hfirst.trans hrest⟩

theorem trace_afterEndwr (mem : Memory) (sdp : Bool) (draws : Nat) (s : State) :
    (afterEndwr mem sdp draws s).trace = s.trace ++ endTrace :=
  trace_emit endTrace _

theorem trace_sequencerDone (o : Op) (table : List (Word × Byte)) (last : Word × Byte) (sdp : Bool) (s : State) :
    (sequencerDone o table last sdp s).trace = s.trace ++ (beginTrace ++ sequenceTrace table ++ endTrace) :=
  trace_emit (beginTrace ++ sequenceTrace table ++ endTrace) s

/-- `BEGINWR` opens a closed bracket: no write has been received in it yet (R172). -/
theorem exec_beginwr_opens {s : State} (hs : s.Closed) :
    ∃ t, exec .beginwr s = .next t ∧ t.Writable ∧ t.trace = s.trace ++ beginTrace ∧ t.group = [] ∧ t.mem = s.mem ∧
      t.sdp = s.sdp ∧ t.config = s.config :=
  ⟨_, exec_beginwr hs.dirIn, ⟨rfl, rfl, hs.weHigh⟩, trace_emit beginTrace s, hs.noGroup, rfl, rfl, rfl⟩

/-- The trace and the chip are the same in both states. -/
def SameTraceAndChip (t u : State) : Prop :=
  t.trace = u.trace ∧ t.mem = u.mem ∧ t.sdp = u.sdp ∧ t.group = u.group

/-- R205: from a closed bracket the raw writes of an exact sequence complete, and leave the trace and the chip as the
sequencer does. -/
theorem execAll_rawSequence {table : List (Word × Byte)} {last : Word × Byte} {sdp : Bool} {s : State}
    (h : ExactSequence table last sdp) (hs : s.Closed) (o : Op) :
    ∃ t, execAll (rawSequence table) s = .next t ∧ SameTraceAndChip t (sequencerDone o table last sdp s) := by
  obtain ⟨b, hbegin, hopen, htrace, hgroup, hmem, hsdp, hconfig⟩ := exec_beginwr_opens hs
  obtain ⟨u, hwrites, hw⟩ := execAll_wrbytes h.inArray hopen [.endwr]
  have hg : u.group = table.map pulseOf := by rw [hw.group, hgroup, List.nil_append]
  have hend := exec_endwr_committed hw.writable.dirOut (h.commits (endwrWaited u) hg)
  refine ⟨_, (execAll_cons hbegin).trans (hwrites.trans (execAll_cons hend)), ?_, ?_, rfl, hs.noGroup.symm⟩
  · rw [trace_afterEndwr, hw.trace, htrace, trace_sequencerDone]
    simp only [List.append_assoc]
  · exact storeSequence_congr last.2 (hw.mem.trans hmem) (hw.sdp.trans hsdp) (hw.config.trans hconfig)

end Sys2Proof.Machine
end

section
/-! SUPPORT. The obligations of 43_sdp.md, settled from the laws above. -/

namespace Sys2Proof.Machine

/-- Settles O35: an outcome seen without the chip is that of the state without the chip. -/
theorem controllerNeverSeesChip : Obligations.ControllerNeverSeesChip := by
  intro i s m p
  have hblind (hi : ∀ a, i ≠ .rdbyte a) :
      viewOutcome State.forgetDevice (exec i { s with mem := m, sdp := p }) =
        viewOutcome State.forgetDevice (exec i s) :=
    (exec_blind hi { s with mem := m, sdp := p }).symm.trans (exec_blind hi s)
  refine ⟨?_, hblind⟩
  by_cases hi : ∃ a, i = .rdbyte a
  · obtain ⟨a, rfl⟩ := hi
    exact (exec_rdbyte_forgetReads a { s with mem := m, sdp := p }).symm.trans (exec_rdbyte_forgetReads a s)
  · have h := congrArg (viewOutcome State.forgetReads) (hblind (not_exists.mp hi))
    rwa [viewOutcome_viewOutcome, viewOutcome_viewOutcome] at h

/-- Settles O32: the chip takes the table for the enable sequence, and the bracket is back where it was. -/
theorem sdpenLocksChip : Obligations.SdpenLocksChip := by
  intro s hs hm
  exact ⟨_, exec_sdpen_eq hs, sequencerDone_eq _ _ _ _ s, readCell_storeSequence 0xA0 hm⟩

/-- Settles O33: the chip takes the table for the disable sequence, and the bracket is back where it was. -/
theorem sdpdisUnlocksChip : Obligations.SdpdisUnlocksChip := by
  intro s hs hm
  exact ⟨_, exec_sdpdis_eq hs, sequencerDone_eq _ _ _ _ s, readCell_storeSequence 0x20 hm⟩

/-- Settles O34: both runs put the same exact group before the same chip, so both commits leave the same. -/
theorem rawSequenceEqualsSequencer : Obligations.RawSequenceEqualsSequencer := by
  intro s hs _
  obtain ⟨t, ht, heffect⟩ := execAll_rawSequence exactSequence_enable hs .sdpen
  obtain ⟨u, hu, heffect'⟩ := execAll_rawSequence exactSequence_disable hs .sdpdis
  exact ⟨⟨t, _, ht, exec_sdpen_eq hs, heffect⟩, ⟨u, _, hu, exec_sdpdis_eq hs, heffect'⟩⟩

end Sys2Proof.Machine
end

section
/-! SUPPORT. The obligation of 60_exceptions.md, settled from the laws above. -/

namespace Sys2Proof.Machine

/-- R226: a record with no byte read changes `STATUS`, `BUSY` and the records only. -/
theorem completeWith_false (st : Byte) (s : State) :
    completeWith st false s = { s with status := st, busy := false, recordsRev := [st] :: s.recordsRev } := rfl

/-- Settles O37: the first cause of R227 is the one the request is refused with, and a refusal writes its record alone. -/
theorem refusalLeavesNoMark : Obligations.RefusalLeavesNoMark := by
  intro i s c hc
  calc exec i s = .next (completeWith c false s) := exec_refused hc
    _ = .next { s with status := c, busy := false, recordsRev := [c] :: s.recordsRev } := by
      rw [completeWith_false]

end Sys2Proof.Machine
end

section
/-! SUPPORT. What the host's reset answers, and the obligation of 70_reset_and_hazards.md. -/

namespace Sys2Proof.Machine

section
variable (stream : List Byte) {s : State}

/-- R261: while a request runs there is no reset step. -/
theorem hostReset_busy (h : s.busy = true) : hostReset stream s = .fault .resetWhileBusy := by
  rw [hostReset, if_pos h]

/-- R260: between requests the reset completes. -/
theorem hostReset_idle (h : s.busy = false) : hostReset stream s = .next (controllerReset stream s) := by
  rw [hostReset, if_neg (by simp [h])]

variable (s)

/-- R71, R262: the chip, the events and the parameters are not the controller's to reset. -/
theorem controllerReset_frame :
    (controllerReset stream s).mem = s.mem ∧ (controllerReset stream s).sdp = s.sdp ∧
      (controllerReset stream s).trace = s.trace ∧ (controllerReset stream s).config = s.config :=
  ⟨rfl, rfl, rfl, rfl⟩

end

/-- Settles O45: the registers that R42 fixes are taken from the reset state, so they have its values (O44). -/
theorem hostResetKeepsDevice : Obligations.HostResetKeepsDevice := by
  intro stream s
  refine ⟨hostReset_busy stream, fun hidle => ⟨_, hostReset_idle stream hidle, ?_⟩⟩
  obtain ⟨hstatus, hbusy, hrp, hsrclk, hrclk, hdir, hwe, hoe, hprog, hread, htmrWe, htmrPage, hgroup⟩ :=
    resetValuesOfTable
  exact ⟨hstatus, hbusy, hrp, hsrclk, hrclk, hdir, hwe, hoe, hprog, hread, htmrWe, htmrPage, hgroup,
    controllerReset_frame stream s⟩

end Sys2Proof.Machine
end
